-- ==== Sys2Proof/Word.lean ====
section
/-! DEFINITION. The word and the register index (00_scope R8, 10_state R21). -/

namespace Sys2Proof

/-- One 16-bit word: the width of every register, address and memory cell (00_scope R8). -/
abbrev Word := BitVec 16

/-- The name of a general register, 0..7 (10_state R21, 46_assembler R172). -/
abbrev RegIdx := Fin 8

end Sys2Proof
end

