-- ==== Sys2Proof/Syntax.lean ====
section
/-! DEFINITION. The instructions: one constructor per row of spec/opcode_table.json (30_encoding R75). -/

namespace Sys2Proof

/-- A decoded instruction: its operand fields and nothing else. Bits that a format does not read are not
part of the instruction (30_encoding R68). -/
inductive Instr where
  /-- BR: condition mask `n z p` and `off9` (42_control R130). -/
  | br (n z p : Bool) (off : BitVec 9)
  /-- ADD, register form (41_operate R120). -/
  | addReg (dr sr1 sr2 : RegIdx)
  /-- ADD, immediate form (41_operate R120). -/
  | addImm (dr sr1 : RegIdx) (imm : BitVec 5)
  /-- LD: PC-relative load (43_load R140). -/
  | ld (dr : RegIdx) (off : BitVec 9)
  /-- ST: PC-relative store (44_store R150). -/
  | st (sr : RegIdx) (off : BitVec 9)
  /-- JSRR: the register form of JSR (42_control R132). -/
  | jsrr (baseR : RegIdx)
  /-- JSR: the PC-relative form (42_control R132). -/
  | jsr (off : BitVec 11)
  /-- AND, register form (41_operate R121). -/
  | andReg (dr sr1 sr2 : RegIdx)
  /-- AND, immediate form (41_operate R121). -/
  | andImm (dr sr1 : RegIdx) (imm : BitVec 5)
  /-- LDR: base + offset load (43_load R142). -/
  | ldr (dr baseR : RegIdx) (off : BitVec 6)
  /-- STR: base + offset store (44_store R152). -/
  | str (sr baseR : RegIdx) (off : BitVec 6)
  /-- RTI: return from interrupt (45_system R161). -/
  | rti
  /-- NOT: bitwise complement (41_operate R122). -/
  | not (dr sr : RegIdx)
  /-- LDI: indirect load (43_load R141). -/
  | ldi (dr : RegIdx) (off : BitVec 9)
  /-- STI: indirect store (44_store R151). -/
  | sti (sr : RegIdx) (off : BitVec 9)
  /-- JMP, and its RET spelling when `baseR = 7` (42_control R131, 30_encoding R72). -/
  | jmp (baseR : RegIdx)
  /-- The reserved opcode 1101, which selects no operation (40_fetch_decode R103). -/
  | unknown
  /-- LEA: load effective address (43_load R143). -/
  | lea (dr : RegIdx) (off : BitVec 9)
  /-- TRAP: call through the trap-vector table (45_system R160). -/
  | trap (vector : BitVec 8)
  deriving DecidableEq, Repr

end Sys2Proof
end

