-- ==== Sys2Proof/Syntax/Records.lean ====
section
/-! DEFINITION. The assembler engine's input and output types (46_assembler R170 to R173, R188). -/

namespace Sys2Proof

/-- A label: two names are the same label exactly when they are equal as strings (46_assembler R171). -/
abbrev LabelName := String

/-- The closed set of opcode identifiers; BR carries its condition mask (46_assembler R173). -/
inductive OpId where
  | add | and | not
  | br (n z p : Bool)
  | jmp | jsr | ld | ldi | ldr | lea | st | sti | str | trap | rti
  deriving DecidableEq, Repr

/-- An operand of a record (46_assembler R172). `width` and `raw` of an immediate are carried and do not
affect encoding. -/
inductive Operand where
  | reg (i : RegIdx)
  | imm (v : Word) (width : Nat) (raw : Bool)
  | label (name : LabelName)
  deriving DecidableEq, Repr

/-- The three kinds of operand (46_assembler R172). -/
inductive OperandKind where
  | reg | imm | label
  deriving DecidableEq, Repr

/-- The body of a record (46_assembler R171). -/
inductive Body where
  | origin (addr : Word)
  | instr (op : OpId) (operands : List Operand)
  | noWord
  deriving DecidableEq, Repr

/-- A structured instruction record (46_assembler R171). -/
structure Record where
  /-- The 1-based source line. -/
  line : Nat
  /-- The literal text of that line. -/
  text : String
  label : Option LabelName
  body : Body
  deriving DecidableEq, Repr

/-- What one slot of an operation's layout accepts (46_assembler R174). -/
inductive Slot where
  /-- A register field. -/
  | reg
  /-- The third operand of ADD and AND: `sr2`, or a signed 5-bit immediate. -/
  | regOrImm5
  /-- A PC-relative 9-bit offset: a label, or the offset itself. -/
  | pcRel9
  /-- The operand of JSR: a PC-relative 11-bit offset (label or immediate), or `baseR`. -/
  | pcRel11OrReg
  /-- The signed 6-bit offset of LDR and STR. -/
  | imm6
  /-- The unsigned 8-bit vector of TRAP. -/
  | vec8
  deriving DecidableEq, Repr

/-- The kinds of error the assembler raises, with their payloads (46_assembler R188). The set of expected
kinds is a list, in the order of the layout table's row. -/
inductive AsmErrorKind where
  | missingOrigin
  | duplicateOrigin
  | duplicateLabel (name : LabelName)
  | operandCountMismatch (expected found : Nat)
  | operandKindMismatch (position : Nat) (expected : List OperandKind)
  | unresolvedLabel (name : LabelName)
  | immediateOverflow (width : Nat) (value lo hi : Int)
  deriving DecidableEq, Repr

/-- An assembler error: its kind, the line and text of the record at fault, and a cause whose text no rule
reads (46_assembler R188). -/
structure AsmError where
  kind : AsmErrorKind
  line : Nat
  text : String
  cause : String
  deriving DecidableEq, Repr

end Sys2Proof
end

