-- ==== Sys2Proof/WellFormed.lean ====
section
/-! DEFINITION. Well-formed instructions and records. Field widths are in the types; what is left to check is
that an instruction is one of the 15 operations, and that a record's line is positive. -/

namespace Sys2Proof

/-- The instruction selects one of the 15 operations. UNKNOWN has no encoding (30_encoding R63, R64). -/
def Instr.wellFormed : Instr → Bool
  | .unknown => false
  | .br .. | .addReg .. | .addImm .. | .ld .. | .st .. | .jsrr .. | .jsr .. | .andReg .. | .andImm ..
  | .ldr .. | .str .. | .rti | .not .. | .ldi .. | .sti .. | .jmp .. | .lea .. | .trap .. => true

/-- The record's line number is a positive integer (46_assembler R171). -/
def Record.wellFormed (r : Record) : Bool := decide (0 < r.line)

end Sys2Proof
end

