-- ==== Sys2Proof/Decode.lean ====
section
/-! DEFINITION. The opcode table, the decoder, and after it the encoder (30_encoding.md). -/

namespace Sys2Proof

/-! ## Bit fields and extension -/

/-- The 3-bit register field whose lowest bit is `lo` (30_encoding R70). -/
def regField (w : Word) (lo : Nat) : RegIdx := (w.extractLsb' lo 3).toFin

/-- Sign extension to 16 bits: the one helper that decoding, execution and the assembler share (00_scope R12,
30_encoding R69). -/
def sext {n : Nat} (f : BitVec n) : Word := f.signExtend 16

/-- Zero extension to 16 bits, for the trap vector (30_encoding R69). -/
def zext {n : Nat} (f : BitVec n) : Word := f.setWidth 16

/-! ## The opcode dispatch table (30_encoding R64, R65) -/

/-- The 15 operations (30_encoding R65). The UNKNOWN sentinel is `none : Option Operation`. -/
inductive Operation where
  | br | add | ld | st | jsr | and | ldr | str | rti | not | ldi | sti | jmp | lea | trap
  deriving DecidableEq, Repr

/-- The one opcode table, used in both directions (30_encoding R64). UNVERIFIED: the codes other than ADD's are
the spec's decision D1. -/
def opcodes : List (Operation × BitVec 4) :=
  [(.br, 0b0000), (.add, 0b0001), (.ld, 0b0010), (.st, 0b0011), (.jsr, 0b0100), (.and, 0b0101),
   (.ldr, 0b0110), (.str, 0b0111), (.rti, 0b1000), (.not, 0b1001), (.ldi, 0b1010), (.sti, 0b1011),
   (.jmp, 0b1100), (.lea, 0b1110), (.trap, 0b1111)]

/-- The operation that a table gives a code, if any. -/
def operationIn : List (Operation × BitVec 4) → BitVec 4 → Option Operation
  | [], _ => none
  | (op, c) :: rest, code => if c = code then some op else operationIn rest code

/-- The code that a table gives an operation. `opcodes` lists every operation, so the code of the empty table,
the sentinel's 1101, is never the answer for it. -/
def codeIn : List (Operation × BitVec 4) → Operation → BitVec 4
  | [], _ => 0b1101
  | (o, c) :: rest, op => if o = op then c else codeIn rest op

/-- `opcode_decode(word)`: the operation of bits 15..12, or UNKNOWN (`none`) (30_encoding R62). -/
def opcodeDecode (w : Word) : Option Operation := operationIn opcodes (w.extractLsb' 12 4)

/-- The code of an operation, placed in bits 15..12. -/
def opcodeBits (op : Operation) : Word := (codeIn opcodes op).setWidth 16 <<< 12

/-- `opcode_encode(op)`: refused (`none`) for UNKNOWN (30_encoding R63). -/
def opcodeEncode : Option Operation → Option Word
  | none => none
  | some op => some (opcodeBits op)

/-! ## Decoding -/

/-- The instruction that a word is when its opcode selects the operation `op`, or none: bit 5 of ADD and AND and bit
11 of JSR select the operand form, and the bits a format does not read are ignored (30_encoding R61, R67, R68). -/
def decodeAs (op : Option Operation) (w : Word) : Instr :=
  match op with
  | none => .unknown
  | some .br => .br (w.getLsbD 11) (w.getLsbD 10) (w.getLsbD 9) (w.extractLsb' 0 9)
  | some .add =>
    if w.getLsbD 5 then .addImm (regField w 9) (regField w 6) (w.extractLsb' 0 5)
    else .addReg (regField w 9) (regField w 6) (regField w 0)
  | some .ld => .ld (regField w 9) (w.extractLsb' 0 9)
  | some .st => .st (regField w 9) (w.extractLsb' 0 9)
  | some .jsr => if w.getLsbD 11 then .jsr (w.extractLsb' 0 11) else .jsrr (regField w 6)
  | some .and =>
    if w.getLsbD 5 then .andImm (regField w 9) (regField w 6) (w.extractLsb' 0 5)
    else .andReg (regField w 9) (regField w 6) (regField w 0)
  | some .ldr => .ldr (regField w 9) (regField w 6) (w.extractLsb' 0 6)
  | some .str => .str (regField w 9) (regField w 6) (w.extractLsb' 0 6)
  | some .rti => .rti
  | some .not => .not (regField w 9) (regField w 6)
  | some .ldi => .ldi (regField w 9) (w.extractLsb' 0 9)
  | some .sti => .sti (regField w 9) (w.extractLsb' 0 9)
  | some .jmp => .jmp (regField w 6)
  | some .lea => .lea (regField w 9) (w.extractLsb' 0 9)
  | some .trap => .trap (w.extractLsb' 0 8)

/-- Decoding: total on every word; the opcode field alone selects the operation (30_encoding R61, R62). -/
def decode (w : Word) : Instr := decodeAs (opcodeDecode w) w

/-- The host's question about one row of the opcode table: what the decoder reads from an instruction whose
bits are `w`. Every instruction is one 16-bit word (30_encoding R60); a longer one is no instruction. -/
def decodeTableWord (nbits w : Nat) : Option Instr :=
  if nbits ≤ 16 then some (decode (BitVec.ofNat 16 (w % 2 ^ nbits))) else none

/-! ## Encoding (46_assembler R185, 30_encoding R67 and R68) -/

/-- A register number placed with its lowest bit at `o`. -/
def placeReg (r : RegIdx) (o : Nat) : Word := BitVec.ofNat 16 r.val <<< o

/-- A single bit placed at `o`. -/
def placeBit (b : Bool) (o : Nat) : Word := (if b then 0x0001#16 else 0x0000#16) <<< o

/-- The operation an instruction belongs to; UNKNOWN belongs to none (30_encoding R65). -/
def Instr.operation : Instr → Option Operation
  | .br .. => some .br
  | .addReg .. => some .add
  | .addImm .. => some .add
  | .ld .. => some .ld
  | .st .. => some .st
  | .jsrr .. => some .jsr
  | .jsr .. => some .jsr
  | .andReg .. => some .and
  | .andImm .. => some .and
  | .ldr .. => some .ldr
  | .str .. => some .str
  | .rti => some .rti
  | .not .. => some .not
  | .ldi .. => some .ldi
  | .sti .. => some .sti
  | .jmp .. => some .jmp
  | .unknown => none
  | .lea .. => some .lea
  | .trap .. => some .trap

/-- Each operand field at its bit position, with the fixed bits of the form; every bit the layout does not name
is 0 (46_assembler R185). -/
def operandBits : Instr → Word
  | .br n z p off => placeBit n 11 ||| placeBit z 10 ||| placeBit p 9 ||| off.setWidth 16
  | .addReg dr sr1 sr2 => placeReg dr 9 ||| placeReg sr1 6 ||| placeReg sr2 0
  | .addImm dr sr1 imm => placeReg dr 9 ||| placeReg sr1 6 ||| placeBit true 5 ||| imm.setWidth 16
  | .ld dr off => placeReg dr 9 ||| off.setWidth 16
  | .st sr off => placeReg sr 9 ||| off.setWidth 16
  | .jsrr baseR => placeReg baseR 6
  | .jsr off => placeBit true 11 ||| off.setWidth 16
  | .andReg dr sr1 sr2 => placeReg dr 9 ||| placeReg sr1 6 ||| placeReg sr2 0
  | .andImm dr sr1 imm => placeReg dr 9 ||| placeReg sr1 6 ||| placeBit true 5 ||| imm.setWidth 16
  | .ldr dr baseR off => placeReg dr 9 ||| placeReg baseR 6 ||| off.setWidth 16
  | .str sr baseR off => placeReg sr 9 ||| placeReg baseR 6 ||| off.setWidth 16
  | .rti => 0
  | .not dr sr => placeReg dr 9 ||| placeReg sr 6
  | .ldi dr off => placeReg dr 9 ||| off.setWidth 16
  | .sti sr off => placeReg sr 9 ||| off.setWidth 16
  | .jmp baseR => placeReg baseR 6
  | .unknown => 0
  | .lea dr off => placeReg dr 9 ||| off.setWidth 16
  | .trap vector => vector.setWidth 16

/-- The word of an instruction: the opcode bits combined with each operand field (46_assembler R185). UNKNOWN
has no encoding (30_encoding R63). -/
def encode (i : Instr) : Option Word := i.operation.map fun op => opcodeBits op ||| operandBits i

/-! ## The opcode map as match and mask (30_encoding R75) -/

/-- The bits of an instruction's word that its format does not read (30_encoding R68). -/
def ignoredMask : Instr → Word
  | .addReg .. | .andReg .. => 0x0018
  | .not .. => 0x003F
  | .jmp .. => 0x0E3F
  | .jsrr .. => 0x063F
  | .trap .. => 0x0F00
  | .rti | .unknown => 0x0FFF
  | .br .. | .addImm .. | .ld .. | .st .. | .jsr .. | .andImm .. | .ldr .. | .str .. | .ldi .. | .sti ..
  | .lea .. => 0x0000

/-- The mnemonic of an instruction's row of spec/opcode_table.json. -/
def Instr.mnemonic : Instr → String
  | .br .. => "BR"
  | .addReg .. => "ADD__register"
  | .addImm .. => "ADD__immediate"
  | .ld .. => "LD"
  | .st .. => "ST"
  | .jsrr .. => "JSRR"
  | .jsr .. => "JSR"
  | .andReg .. => "AND__register"
  | .andImm .. => "AND__immediate"
  | .ldr .. => "LDR"
  | .str .. => "STR"
  | .rti => "RTI"
  | .not .. => "NOT"
  | .ldi .. => "LDI"
  | .sti .. => "STI"
  | .jmp .. => "JMP"
  | .unknown => "UNKNOWN__reserved"
  | .lea .. => "LEA"
  | .trap .. => "TRAP"

/-- The 19 rows of the opcode map: mnemonic, mask, match (30_encoding R75). -/
def opcodeRows : List (String × Word × Word) :=
  [("BR", 0xF000, 0x0000), ("ADD__register", 0xF020, 0x1000), ("ADD__immediate", 0xF020, 0x1020),
   ("LD", 0xF000, 0x2000), ("ST", 0xF000, 0x3000), ("JSRR", 0xF800, 0x4000), ("JSR", 0xF800, 0x4800),
   ("AND__register", 0xF020, 0x5000), ("AND__immediate", 0xF020, 0x5020), ("LDR", 0xF000, 0x6000),
   ("STR", 0xF000, 0x7000), ("RTI", 0xF000, 0x8000), ("NOT", 0xF000, 0x9000), ("LDI", 0xF000, 0xA000),
   ("STI", 0xF000, 0xB000), ("JMP", 0xF000, 0xC000), ("UNKNOWN__reserved", 0xF000, 0xD000),
   ("LEA", 0xF000, 0xE000), ("TRAP", 0xF000, 0xF000)]

/-- A word matches a row: `(w & mask) == match`. -/
def rowMatches (w : Word) (row : String × Word × Word) : Bool := w &&& row.2.1 == row.2.2

end Sys2Proof
end

