-- ==== Sys2Proof/Config.lean ====
section
/-! DEFINITION. The parameters that the spec leaves open (00_scope R9), as types, and the one free value. The
values that `State.reset` and `exec` take stand in Machine/Params.lean. -/

namespace Sys2Proof

/-- `JSRR_LINK_ORDER`: whether the register form of JSR reads `baseR` after or before it writes R7 (D5). -/
inductive LinkOrder where
  /-- The link is written first, as the source's row is written: the spec's default. -/
  | linkFirst
  /-- The target is read first. -/
  | targetFirst
  deriving DecidableEq, Repr

/-- `DUP_LABEL_POLICY`: what pass 1 does with a label defined twice (D24). -/
inductive DupLabelPolicy where
  /-- A second definition is an error: the spec's default. -/
  | error
  /-- The last definition replaces the earlier one. -/
  | lastWins
  deriving DecidableEq, Repr

/-- The values that `RESET_NZP` may take (D14). -/
inductive ResetFlags where
  | n | z | p
  /-- All three flags false. -/
  | none
  deriving DecidableEq, Repr

/-- The open parameters of `reset()` (00_scope R9, 10_state R30). -/
structure ResetParams where
  /-- `RESET_PC` (D11). -/
  resetPc : Word
  /-- `RESET_SP_ACTIVE`, the reset value of R6 (D13). -/
  resetSpActive : Word
  /-- `RESET_SP_SAVED`, the reset value of the swap stack pointer (D13). -/
  resetSpSaved : Word
  /-- `RESET_NZP` (D14). -/
  resetNzp : ResetFlags
  /-- `RESET_PSR` (D15). -/
  resetPsr : Word
  /-- `MEM_INIT` (D16). -/
  memInit : Word → Word

/-- The text of an assembler error's cause: not specified, and no rule reads it (46_assembler R188, 93 I15).
A FREE VALUE: it has no body, so nothing can be proved about the text (log 15). -/
opaque Config.asmCause : AsmErrorKind → String

end Sys2Proof
end

