-- ==== Sys2Proof/Machine/Memory.lean ====
section
/-! DEFINITION. Memory: 65536 16-bit words, held as a list of cells in one canonical form (10_state R28,
20_memory R40 and R41). -/

namespace Sys2Proof.Machine

/-- One cell: a word address, as a number, and the 16-bit word there. The smallest addressable unit is the
16-bit word, and no byte view exists (20_memory R42, R43). DESIGN CHOICE, safe: log 11. -/
abbrev Cell := Nat × Word

/-- What an address that no cell lists reads as. DESIGN CHOICE, unsafe: `MEM_INIT` is open (D16), log 7. -/
def unlisted : Word := 0x0000

/-- The contents of the address space. Canonical form (`Memory.wf`): addresses strictly rising and below 65536,
no cell holding `unlisted`. -/
structure Memory where
  cells : List Cell
  deriving DecidableEq, Repr

/-- Memory with no cell listed. -/
def Memory.empty : Memory := ⟨[]⟩

/-- The word that the cells give an address. -/
def readCells : List Cell → Nat → Word
  | [], _ => unlisted
  | (b, v) :: rest, a => if a = b then v else readCells rest a

/-- The cells without any for address `a`. -/
def removeCell : List Cell → Nat → List Cell
  | [], _ => []
  | (b, v) :: rest, a => if a = b then removeCell rest a else (b, v) :: removeCell rest a

/-- The cells with one more, put before the first cell of a higher address. -/
def insertCell : List Cell → Nat → Word → List Cell
  | [], a, v => [(a, v)]
  | (b, w) :: rest, a, v => if a < b then (a, v) :: (b, w) :: rest else (b, w) :: insertCell rest a v

/-- `MemRead(a)` (20_memory R41). -/
def Memory.read (m : Memory) (a : Word) : Word := readCells m.cells a.toNat

/-- `MemWrite(a, v)` (20_memory R41). Writing what an unlisted address reads as removes the cell. -/
def Memory.write (m : Memory) (a v : Word) : Memory :=
  if v = unlisted then ⟨removeCell m.cells a.toNat⟩
  else ⟨insertCell (removeCell m.cells a.toNat) a.toNat v⟩

/-- The cells are in canonical form, with every address at least `lo`. -/
def cellsWf : Nat → List Cell → Bool
  | _, [] => true
  | lo, (b, v) :: rest => decide (lo ≤ b) && decide (b < 65536) && decide (v ≠ unlisted) && cellsWf (b + 1) rest

/-- Memory is in its canonical form. -/
def Memory.wf (m : Memory) : Bool := cellsWf 0 m.cells

/-- The cells of the addresses below `n` that `f` does not give `unlisted`, put before `rest`. -/
def cellsBelow (f : Word → Word) : Nat → List Cell → List Cell
  | 0, rest => rest
  | n + 1, rest =>
    cellsBelow f n (if f (BitVec.ofNat 16 n) = unlisted then rest else (n, f (BitVec.ofNat 16 n)) :: rest)

/-- The memory whose word at each address is what `f` gives it: `MEM_INIT` as data (10_state R30). -/
def Memory.ofFunction (f : Word → Word) : Memory := ⟨cellsBelow f 65536 []⟩

end Sys2Proof.Machine
end

