-- ==== Sys2Proof/Machine/Params.lean ====
section
/-! DEFINITION. The values that this model gives the open parameters of 00_scope R9 where the machine needs one
value: `State.reset` and JSRR. Every one is named in the assumption log. -/

namespace Sys2Proof.Machine

/-- The reset parameters of `State.reset`. `resetPc` is the spec's default (D11). DESIGN CHOICE, unsafe: the
other five, for which the spec gives no value (logs 2 to 7). -/
def resetParams : ResetParams where
  resetPc := 0x3000
  resetSpActive := 0x0000
  resetSpSaved := 0x0000
  resetNzp := .none
  resetPsr := 0x0000
  memInit := fun _ => unlisted

/-- The `JSRR_LINK_ORDER` of `exec` and `step`, whose form the host fixes: the spec's default (D5). `execIn`, `stepIn`
and every operation of the host take the order as an argument. DESIGN CHOICE, unsafe: log 8. -/
def jsrrLinkOrder : LinkOrder := .linkFirst

end Sys2Proof.Machine
end

