-- ==== Sys2Proof/Machine/State.lean ====
section
/-! DEFINITION. The architectural state (10_state R20), the reasons a step can stop, and reset (10_state R30,
70_reset_and_hazards R220). -/

namespace Sys2Proof.Machine

/-- The condition flags: three Booleans (10_state R24). -/
structure Flags where
  n : Bool
  z : Bool
  p : Bool
  deriving DecidableEq, Repr

/-- The execution engine's architectural state: exactly this tuple (10_state R20, R33). -/
structure State where
  /-- The general registers `x[0]` to `x[7]` (R21); R6 is the active stack pointer, R7 the link register (R22). -/
  regs : Vector Word 8
  /-- The program counter: the word address of the instruction to fetch (R23). -/
  pc : Word
  /-- The condition flags N, Z, P (R24). -/
  flags : Flags
  /-- The processor-status word, opaque and separate from the flags (R26). -/
  psr : Word
  /-- `SSP_SAVED`, the swap stack pointer (R27). -/
  sspSaved : Word
  /-- The memory (R28). -/
  mem : Memory
  deriving DecidableEq, Repr

/-- Why a step stops. -/
inductive Fault where
  /-- Raised by a step whose word has the reserved opcode 1101: the outcome `Unrecognized`. The record holds the
  address of the word and the word; the state is unchanged (40_fetch_decode R103, 60_exceptions R201). Safe: the
  machine stops where the hardware would repeat the same step for ever (log 12). -/
  | unrecognized (pcF word : Word)
  deriving DecidableEq, Repr

/-- Why the model gives an instruction no meaning. -/
inductive Refusal where
  /-- Raised by `exec` for an instruction that has no meaning yet. Safe: nothing runs. No arm of this model
  raises it. -/
  | notModelled (mnemonic : String)
  deriving DecidableEq, Repr

/-- The flags that a value of `RESET_NZP` stands for (D14). -/
def resetFlagsOf : ResetFlags → Flags
  | .n => ⟨true, false, false⟩
  | .z => ⟨false, true, false⟩
  | .p => ⟨false, false, true⟩
  | .none => ⟨false, false, false⟩

/-- The state after `reset()` but for its memory (10_state R30). -/
def State.resetOver (p : ResetParams) (m : Memory) : State where
  regs := (Vector.replicate 8 0x0000).set 6 p.resetSpActive
  pc := p.resetPc
  flags := resetFlagsOf p.resetNzp
  psr := p.resetPsr
  sspSaved := p.resetSpSaved
  mem := m

/-- The state after `reset()`, for every choice of the open parameters (10_state R30). -/
def State.resetWith (p : ResetParams) : State := State.resetOver p (Memory.ofFunction p.memInit)

/-- The machine right after reset, at this model's values of the open parameters: it is
`State.resetWith resetParams`, with the memory that lists nothing written as such
(`Laws.reset_eq_resetWith`). -/
def State.reset : State := State.resetOver resetParams Memory.empty

end Sys2Proof.Machine
end

