-- ==== Sys2Proof/Machine/Flags.lean ====
section
/-! DEFINITION. The condition-code update and the branch condition: the only computations that write or read
N, Z and P (10_state R24). -/

namespace Sys2Proof.Machine

/-- `setcc(v)` (40_fetch_decode R104). -/
def setcc (v : Word) : Flags :=
  if v = 0x0000 then ⟨false, true, false⟩
  else if v.getLsbD 15 then ⟨true, false, false⟩
  else ⟨false, false, true⟩

/-- The branch condition of BR: `(n & N) | (z & Z) | (p & P)` (42_control R130). -/
def branchTaken (n z p : Bool) (f : Flags) : Bool := (n && f.n) || (z && f.z) || (p && f.p)

end Sys2Proof.Machine
end

