-- ==== Sys2Proof/Machine/Ops.lean ====
section
/-! DEFINITION. The named operations over registers, memory and the pc, taking an interrupt and returning from
one. Every meaning is written over these. -/

namespace Sys2Proof.Machine

/-- R6, the active stack pointer (10_state R22). -/
def spReg : RegIdx := 6

/-- R7, the link register (10_state R22). -/
def linkReg : RegIdx := 7

/-! ## One piece of state at a time -/

/-- `x[i]` (00_scope R11). -/
def State.readReg (s : State) (i : RegIdx) : Word := s.regs[i]

/-- `x[i] <- v`; no register is hardwired (10_state R21). -/
def State.writeReg (s : State) (i : RegIdx) (v : Word) : State := { s with regs := s.regs.set i v }

/-- `MemRead(a)` (20_memory R41). -/
def State.readMem (s : State) (a : Word) : Word := s.mem.read a

/-- `MemWrite(a, v)` (20_memory R41). -/
def State.writeMem (s : State) (a v : Word) : State := { s with mem := s.mem.write a v }

/-- `pc <- v` (10_state R23). -/
def State.setPc (s : State) (v : Word) : State := { s with pc := v }

/-- The three flags are written together (40_fetch_decode R104). -/
def State.setFlags (s : State) (f : Flags) : State := { s with flags := f }

/-- `PSR <- v`: all 16 bits are stored as written (10_state R26). -/
def State.setPsr (s : State) (v : Word) : State := { s with psr := v }

/-- `SSP_SAVED <- v` (10_state R27). -/
def State.setSspSaved (s : State) (v : Word) : State := { s with sspSaved := v }

/-! ## What several instructions share -/

/-- The fetch: the word at `mem[pc]` (40_fetch_decode R101). -/
def State.fetch (s : State) : Word := s.readMem s.pc

/-- `PC_f + 1`, modulo 2^16: the default next pc and the link value (40_fetch_decode R100, 00_scope R13). -/
def State.incPc (s : State) : Word := s.pc + 1

/-- Write a result to `x[dr]`, set the flags from it and go to the next instruction: ADD, AND, NOT and the loads
(40_fetch_decode R104). -/
def State.writeResult (s : State) (dr : RegIdx) (v : Word) : State :=
  ((s.writeReg dr v).setFlags (setcc v)).setPc s.incPc

/-- Store one word and go to the next instruction: ST, STI, STR (44_store.md). -/
def State.storeWord (s : State) (a v : Word) : State := (s.writeMem a v).setPc s.incPc

/-- Save the return address in R7 and go to a target: JSR and TRAP (42_control R132, 45_system R160). -/
def State.linkAndJump (s : State) (target : Word) : State := (s.writeReg linkReg s.incPc).setPc target

/-- The register form of JSR, in either order of its link write and target read (42_control R132, D5). -/
def State.callRegister (s : State) (order : LinkOrder) (baseR : RegIdx) : State :=
  match order with
  | .linkFirst =>
    let linked := s.writeReg linkReg s.incPc
    linked.setPc (linked.readReg baseR)
  | .targetFirst => s.linkAndJump (s.readReg baseR)

/-! ## Taking an interrupt, and returning from one -/

/-- `interrupt(vector)`, the interrupt/privilege transition, in the source's order: swap the stack pointers, make
room for two words, push `pc` and then `PSR`, and read the new `pc` after the pushes (60_exceptions R204). The
flags and `PSR` are unchanged. -/
def State.takeInterrupt (s : State) (vector : Word) : State :=
  let swapped := (s.writeReg spReg s.sspSaved).setSspSaved (s.readReg spReg)
  let lowered := swapped.writeReg spReg (swapped.readReg spReg - 2)
  let pushedPc := lowered.writeMem (lowered.readReg spReg) lowered.pc
  let pushed := pushedPc.writeMem (pushedPc.readReg spReg + 1) pushedPc.psr
  pushed.setPc (pushed.readMem vector)

/-- The return, in the source's order: pop the next pc, then `PSR`. No swap back, no privilege check, and the
flags are unchanged (45_system R161, 60_exceptions R206). -/
def State.returnFromInterrupt (s : State) : State :=
  let target := s.readMem (s.readReg spReg)
  let popped := s.writeReg spReg (s.readReg spReg + 1)
  let restored := popped.setPsr (popped.readMem (popped.readReg spReg))
  (restored.writeReg spReg (restored.readReg spReg + 1)).setPc target

end Sys2Proof.Machine
end

