-- ==== Sys2Proof/Machine/Operands.lean ====
section
/-! DEFINITION. The operand forms and addressing modes (30_encoding R69 and R71, 43_load.md). -/

namespace Sys2Proof.Machine

/-- The PC-relative address `PC_f + 1 + sext(off)`, modulo 2^16 (30_encoding R69). -/
def State.pcRelative (s : State) {n : Nat} (off : BitVec n) : Word := s.incPc + sext off

/-- The indirect address: the word at a PC-relative address (43_load R141, 44_store R151). -/
def State.indirect (s : State) (off : BitVec 9) : Word := s.readMem (s.pcRelative off)

/-- The base + offset address `x[baseR] + sext(off6)`, modulo 2^16 (43_load R142). -/
def State.baseOffset (s : State) (baseR : RegIdx) (off : BitVec 6) : Word := s.readReg baseR + sext off

/-- The trap-table entry: the word at the zero-extended vector (45_system R160, D4). -/
def State.trapEntry (s : State) (vector : BitVec 8) : Word := s.readMem (zext vector)

end Sys2Proof.Machine
end

