-- ==== Sys2Proof/Machine/Control.lean ====
section
/-! DEFINITION. The control transfers BR, JMP, JSR and JSRR (42_control.md). -/

namespace Sys2Proof.Machine

/-- BR (42_control R130). -/
def execBr (n z p : Bool) (off : BitVec 9) (s : State) : Host.Outcome State Fault Refusal :=
  .next (s.setPc (if branchTaken n z p s.flags then s.pcRelative off else s.incPc))

/-- JMP, and RET when `baseR = 7` (42_control R131). -/
def execJmp (baseR : RegIdx) (s : State) : Host.Outcome State Fault Refusal :=
  .next (s.setPc (s.readReg baseR))

/-- JSR, PC-relative form (42_control R132). -/
def execJsr (off : BitVec 11) (s : State) : Host.Outcome State Fault Refusal :=
  .next (s.linkAndJump (s.pcRelative off))

/-- JSRR, the register form of JSR, in either order of its link write and target read (42_control R132, 00_scope R9). -/
def execJsrrIn (order : LinkOrder) (baseR : RegIdx) (s : State) : Host.Outcome State Fault Refusal :=
  .next (s.callRegister order baseR)

/-- JSRR in the order that `exec` takes. DESIGN CHOICE, unsafe for `baseR = 7`: the spec's default (log 8). -/
def execJsrr (baseR : RegIdx) (s : State) : Host.Outcome State Fault Refusal := execJsrrIn jsrrLinkOrder baseR s

end Sys2Proof.Machine
end

