-- ==== Sys2Proof/Machine/Load.lean ====
section
/-! DEFINITION. The loads LD, LDI, LDR and the address calculation LEA (43_load.md). -/

namespace Sys2Proof.Machine

/-- LD (43_load R140). -/
def execLd (dr : RegIdx) (off : BitVec 9) (s : State) : Host.Outcome State Fault Refusal :=
  .next (s.writeResult dr (s.readMem (s.pcRelative off)))

/-- LDI (43_load R141). -/
def execLdi (dr : RegIdx) (off : BitVec 9) (s : State) : Host.Outcome State Fault Refusal :=
  .next (s.writeResult dr (s.readMem (s.indirect off)))

/-- LDR (43_load R142). -/
def execLdr (dr baseR : RegIdx) (off : BitVec 6) (s : State) : Host.Outcome State Fault Refusal :=
  .next (s.writeResult dr (s.readMem (s.baseOffset baseR off)))

/-- LEA: the address itself, and the flags from it; no memory access (43_load R143). -/
def execLea (dr : RegIdx) (off : BitVec 9) (s : State) : Host.Outcome State Fault Refusal :=
  .next (s.writeResult dr (s.pcRelative off))

end Sys2Proof.Machine
end

