-- ==== Sys2Proof/Machine/Operate.lean ====
section
/-! DEFINITION. The operate instructions ADD, AND and NOT (41_operate.md). -/

namespace Sys2Proof.Machine

/-- ADD, register form (41_operate R120). -/
def execAddReg (dr sr1 sr2 : RegIdx) (s : State) : Host.Outcome State Fault Refusal :=
  .next (s.writeResult dr (s.readReg sr1 + s.readReg sr2))

/-- ADD, immediate form (41_operate R120). -/
def execAddImm (dr sr1 : RegIdx) (imm : BitVec 5) (s : State) : Host.Outcome State Fault Refusal :=
  .next (s.writeResult dr (s.readReg sr1 + sext imm))

/-- AND, register form (41_operate R121). -/
def execAndReg (dr sr1 sr2 : RegIdx) (s : State) : Host.Outcome State Fault Refusal :=
  .next (s.writeResult dr (s.readReg sr1 &&& s.readReg sr2))

/-- AND, immediate form (41_operate R121). -/
def execAndImm (dr sr1 : RegIdx) (imm : BitVec 5) (s : State) : Host.Outcome State Fault Refusal :=
  .next (s.writeResult dr (s.readReg sr1 &&& sext imm))

/-- NOT (41_operate R122). -/
def execNot (dr sr : RegIdx) (s : State) : Host.Outcome State Fault Refusal :=
  .next (s.writeResult dr (~~~ s.readReg sr))

end Sys2Proof.Machine
end

