-- ==== Sys2Proof/Machine/Store.lean ====
section
/-! DEFINITION. The stores ST, STI and STR (44_store.md). -/

namespace Sys2Proof.Machine

/-- ST (44_store R150). -/
def execSt (sr : RegIdx) (off : BitVec 9) (s : State) : Host.Outcome State Fault Refusal :=
  .next (s.storeWord (s.pcRelative off) (s.readReg sr))

/-- STI: the pointer is read before the store (44_store R151). -/
def execSti (sr : RegIdx) (off : BitVec 9) (s : State) : Host.Outcome State Fault Refusal :=
  .next (s.storeWord (s.indirect off) (s.readReg sr))

/-- STR (44_store R152). -/
def execStr (sr baseR : RegIdx) (off : BitVec 6) (s : State) : Host.Outcome State Fault Refusal :=
  .next (s.storeWord (s.baseOffset baseR off) (s.readReg sr))

end Sys2Proof.Machine
end

