-- ==== Sys2Proof/Machine/System.lean ====
section
/-! DEFINITION. The system instructions TRAP and RTI (45_system.md), and the reserved opcode
(40_fetch_decode R103). -/

namespace Sys2Proof.Machine

/-- TRAP: a control transfer through the trap table, which saves only R7 (45_system R160, 60_exceptions R202). -/
def execTrap (vector : BitVec 8) (s : State) : Host.Outcome State Fault Refusal :=
  .next (s.linkAndJump (s.trapEntry vector))

/-- RTI (45_system R161). -/
def execRti (s : State) : Host.Outcome State Fault Refusal :=
  .next s.returnFromInterrupt

/-- The reserved opcode: no state change, and the outcome `Unrecognized`, which a model treats as a fault
outcome (40_fetch_decode R103). The record is `(PC_f, w)` (60_exceptions R201). -/
def execUnknown (s : State) : Host.Outcome State Fault Refusal :=
  .fault (.unrecognized s.pc s.fetch)

end Sys2Proof.Machine
end

