-- ==== Sys2Proof/Machine/Step.lean ====
section
/-! DEFINITION. One step: fetch, decode, dispatch, commit (40_fetch_decode R100). -/

namespace Sys2Proof.Machine

/-- `step()`: the word at `mem[pc]` is decoded and executed; each meaning commits its own next pc. It tests no
halt address and takes no interrupt (40_fetch_decode R100, R108). -/
def step (s : State) : Host.Outcome State Fault Refusal := exec (decode s.fetch) s

/-- The state with the instruction whose bits are `w` stored where `step` fetches its next instruction: the word
at `mem[pc]`. It stands for the host's `load` of that word (log 19). -/
def State.withFetchWord (s : State) (nbits w : Nat) : State :=
  s.writeMem s.pc (BitVec.ofNat 16 (w % 2 ^ nbits))

end Sys2Proof.Machine
end

