-- ==== Sys2Proof/Machine/Assembler.lean ====
section
/-! DEFINITION. The two-pass assembler engine (46_assembler.md). It shares the opcode table and the encoder with
the execution engine and never touches the execution state. -/

namespace Sys2Proof.Machine

/-! ## The symbol table -/

/-- The finite map from label to address that pass 1 builds (46_assembler R177), as a list of bindings. -/
abbrev SymTab := List (LabelName × Word)

/-- The address a table gives a label. -/
def lookupLabel : SymTab → LabelName → Option Word
  | [], _ => none
  | (m, b) :: rest, l => if l = m then some b else lookupLabel rest l

/-- The table with a label bound to an address, in place of any earlier binding. -/
def setLabel : SymTab → LabelName → Word → SymTab
  | [], l, a => [(l, a)]
  | (m, b) :: rest, l, a => if l = m then (l, a) :: rest else (m, b) :: setLabel rest l a

/-- An error found at a record (46_assembler R188). -/
def asmErrorAt (r : Record) (kind : AsmErrorKind) : AsmError :=
  { kind := kind, line := r.line, text := r.text, cause := Config.asmCause kind }

/-- `bind(L, a, r)` for the label of a record, if it has one (46_assembler R177, D24). -/
def bindLabelOf (policy : DupLabelPolicy) (r : Record) (a : Word) (tab : SymTab) : Except AsmError SymTab :=
  match r.label with
  | none => .ok tab
  | some l =>
    match policy, lookupLabel tab l with
    | .error, some _ => .error (asmErrorAt r (.duplicateLabel l))
    | .error, none => .ok (setLabel tab l a)
    | .lastWins, _ => .ok (setLabel tab l a)

/-! ## Pass 1: origin, addresses and labels -/

/-- A blank or comment record: no label and no word (46_assembler R171). -/
def recordIsBlank (r : Record) : Bool := r.label.isNone && decide (r.body = .noWord)

/-- The origin record, its address, and the records after it: the first entry that is not blank
(46_assembler R175). -/
def findOrigin : List Record → Except AsmError (Record × Word × List Record)
  | [] => .error { kind := .missingOrigin, line := 1, text := "", cause := Config.asmCause .missingOrigin }
  | r :: rest =>
    if recordIsBlank r then findOrigin rest
    else
      match r.body with
      | .origin o => .ok (r, o, rest)
      | .instr _ _ => .error (asmErrorAt r .missingOrigin)
      | .noWord => .error (asmErrorAt r .missingOrigin)

/-- An `Instr` record with the address pass 1 gave it (46_assembler R176). -/
structure Placed where
  addr : Word
  record : Record
  op : OpId
  operands : List Operand
  deriving DecidableEq, Repr

/-- The address of the next word after `k` words: `(o + k) mod 2^16` (46_assembler R176). -/
def wordAddress (o : Word) (k : Nat) : Word := o + BitVec.ofNat 16 k

/-- The walk over the records after the origin, with the counter `k` of `Instr` records (46_assembler R176). -/
def collect (policy : DupLabelPolicy) (o : Word) : Nat → SymTab → List Record → Except AsmError (SymTab × List Placed)
  | _, tab, [] => .ok (tab, [])
  | k, tab, r :: rest =>
    match r.body with
    | .origin _ => .error (asmErrorAt r .duplicateOrigin)
    | .noWord => do
      let tab' ← bindLabelOf policy r (wordAddress o k) tab
      collect policy o k tab' rest
    | .instr op operands => do
      let tab' ← bindLabelOf policy r (wordAddress o k) tab
      let (final, placed) ← collect policy o (k + 1) tab' rest
      return (final, ⟨wordAddress o k, r, op, operands⟩ :: placed)

/-- Pass 1: the origin, the symbol table and the placed instructions (46_assembler R175 to R178). A label on the
origin record is bound to the origin. -/
def pass1 (policy : DupLabelPolicy) (records : List Record) : Except AsmError (Word × SymTab × List Placed) := do
  let (r, o, rest) ← findOrigin records
  let tab ← bindLabelOf policy r o []
  let (final, placed) ← collect policy o 0 tab rest
  return (o, final, placed)

/-! ## Pass 2: validation, resolution and encoding -/

/-- The kind of an operand (46_assembler R172). -/
def operandKind : Operand → OperandKind
  | .reg _ => .reg
  | .imm _ _ _ => .imm
  | .label _ => .label

/-- The kinds a slot accepts (46_assembler R174). -/
def slotKinds : Slot → List OperandKind
  | .reg => [.reg]
  | .regOrImm5 => [.reg, .imm]
  | .pcRel9 => [.label, .imm]
  | .pcRel11OrReg => [.label, .imm, .reg]
  | .imm6 => [.imm]
  | .vec8 => [.imm]

/-- The fixed layout of each operation (46_assembler R174). -/
def layout : OpId → List Slot
  | .add => [.reg, .reg, .regOrImm5]
  | .and => [.reg, .reg, .regOrImm5]
  | .not => [.reg, .reg]
  | .br _ _ _ => [.pcRel9]
  | .jmp => [.reg]
  | .jsr => [.pcRel11OrReg]
  | .ld => [.reg, .pcRel9]
  | .ldi => [.reg, .pcRel9]
  | .lea => [.reg, .pcRel9]
  | .st => [.reg, .pcRel9]
  | .sti => [.reg, .pcRel9]
  | .ldr => [.reg, .reg, .imm6]
  | .str => [.reg, .reg, .imm6]
  | .trap => [.vec8]
  | .rti => []

/-- The operation of an opcode identifier (46_assembler R173). -/
def operationOf : OpId → Operation
  | .add => .add
  | .and => .and
  | .not => .not
  | .br _ _ _ => .br
  | .jmp => .jmp
  | .jsr => .jsr
  | .ld => .ld
  | .ldi => .ldi
  | .ldr => .ldr
  | .lea => .lea
  | .st => .st
  | .sti => .sti
  | .str => .str
  | .trap => .trap
  | .rti => .rti

/-- The first operand, left to right, whose kind its slot does not accept: its 1-based position and what the slot
accepts (46_assembler R180 step 2). -/
def kindMismatch : Nat → List Slot → List Operand → Option (Nat × List OperandKind)
  | pos, slot :: slots, operand :: operands =>
    if operandKind operand ∈ slotKinds slot then kindMismatch (pos + 1) slots operands else some (pos, slotKinds slot)
  | _, _, _ => none

/-- Operand count, then operand kinds (46_assembler R180 steps 1 and 2). -/
def checkShape (op : OpId) (operands : List Operand) : Except AsmErrorKind Unit :=
  if operands.length ≠ (layout op).length then
    .error (.operandCountMismatch (layout op).length operands.length)
  else
    match kindMismatch 1 (layout op) operands with
    | some (pos, kinds) => .error (.operandKindMismatch pos kinds)
    | none => .ok ()

/-- An operand after label resolution: a register, or a 16-bit value to be placed in a field. -/
inductive FieldValue where
  | reg (i : RegIdx)
  | value (v : Word)
  deriving DecidableEq, Repr

/-- The value of one operand for the instruction at address `a`: a label becomes the PC-relative offset
`(T - (a + 1)) mod 2^16` (46_assembler R181, R182). -/
def resolveOperand (tab : SymTab) (a : Word) : Operand → Except AsmErrorKind FieldValue
  | .reg i => .ok (.reg i)
  | .imm v _ _ => .ok (.value v)
  | .label l =>
    match lookupLabel tab l with
    | some target => .ok (.value (target - (a + 1)))
    | none => .error (.unresolvedLabel l)

/-- The operands resolved left to right (46_assembler R180 step 3). -/
def resolveOperands (tab : SymTab) (a : Word) : List Operand → Except AsmErrorKind (List FieldValue)
  | [] => .ok []
  | operand :: operands => do
    let f ← resolveOperand tab a operand
    let fs ← resolveOperands tab a operands
    return f :: fs

/-- A signed field of width `n`: the value must come back from its low `n` bits by the sign extension that execution
uses (00_scope R12), which holds exactly for the values `-(2^(n-1)) .. 2^(n-1) - 1` (46_assembler R183,
`Laws.sext_setWidth_iff`). -/
def signedField (n : Nat) (v : Word) : Except AsmErrorKind (BitVec n) :=
  if sext (v.setWidth n) = v then .ok (v.setWidth n)
  else .error (.immediateOverflow n v.toInt (-(2 ^ (n - 1))) (2 ^ (n - 1) - 1))

/-- The trap vector: unsigned, 0..255 (46_assembler R184). -/
def vectorField (v : Word) : Except AsmErrorKind (BitVec 8) :=
  if 0 ≤ v.toInt ∧ v.toInt ≤ 255 then .ok (v.setWidth 8) else .error (.immediateOverflow 8 v.toInt 0 255)

/-- The instruction of an operation and its resolved operands, each value range-checked for its field
(46_assembler R174, R180 step 4). The last arm is for operands that `checkShape` has turned away already
(`Laws.toInstr_of_checkShape`). -/
def toInstr : OpId → List FieldValue → Except AsmErrorKind Instr
  | .add, [.reg dr, .reg sr1, .reg sr2] => .ok (.addReg dr sr1 sr2)
  | .add, [.reg dr, .reg sr1, .value v] => (signedField 5 v).map (.addImm dr sr1)
  | .and, [.reg dr, .reg sr1, .reg sr2] => .ok (.andReg dr sr1 sr2)
  | .and, [.reg dr, .reg sr1, .value v] => (signedField 5 v).map (.andImm dr sr1)
  | .not, [.reg dr, .reg sr] => .ok (.not dr sr)
  | .br n z p, [.value v] => (signedField 9 v).map (.br n z p)
  | .jmp, [.reg baseR] => .ok (.jmp baseR)
  | .jsr, [.value v] => (signedField 11 v).map .jsr
  | .jsr, [.reg baseR] => .ok (.jsrr baseR)
  | .ld, [.reg dr, .value v] => (signedField 9 v).map (.ld dr)
  | .ldi, [.reg dr, .value v] => (signedField 9 v).map (.ldi dr)
  | .lea, [.reg dr, .value v] => (signedField 9 v).map (.lea dr)
  | .st, [.reg sr, .value v] => (signedField 9 v).map (.st sr)
  | .sti, [.reg sr, .value v] => (signedField 9 v).map (.sti sr)
  | .ldr, [.reg dr, .reg baseR, .value v] => (signedField 6 v).map (.ldr dr baseR)
  | .str, [.reg sr, .reg baseR, .value v] => (signedField 6 v).map (.str sr baseR)
  | .trap, [.value v] => (vectorField v).map .trap
  | .rti, [] => .ok .rti
  | op, fields => .error (.operandCountMismatch (layout op).length fields.length)

/-- The word of one `Instr` record at address `a`, in the validation order of 46_assembler R180; the word is the
opcode bits with each field at its position (R185). -/
def encodeRecord (tab : SymTab) (a : Word) (op : OpId) (operands : List Operand) : Except AsmErrorKind Word := do
  checkShape op operands
  let fields ← resolveOperands tab a operands
  let i ← toInstr op fields
  return opcodeBits (operationOf op) ||| operandBits i

/-- Pass 2: every placed instruction in order; the first error aborts (46_assembler R179). -/
def pass2 (tab : SymTab) : List Placed → Except AsmError (List Word)
  | [] => .ok []
  | q :: rest =>
    match encodeRecord tab q.addr q.op q.operands with
    | .error kind => .error (asmErrorAt q.record kind)
    | .ok w => do
      let ws ← pass2 tab rest
      return w :: ws

/-- `assemble(records)`: pass 1 to completion, then pass 2; the origin followed by one word per `Instr` record, or
one error (46_assembler R170, R178, R186, R190). -/
def assemble (policy : DupLabelPolicy) (records : List Record) : Except AsmError (List Word) := do
  let (o, tab, placed) ← pass1 policy records
  let words ← pass2 tab placed
  return o :: words

end Sys2Proof.Machine
end

