-- ==== Sys2Proof/Laws/Assembler.lean ====
section
/-! SUPPORT. The assembler: its layouts and its instruction builder agree. -/

namespace Sys2Proof.Laws

open Sys2Proof.Machine

/-! ## The symbol table -/

/-- Binding a label changes that label's address and no other's (46_assembler R177). -/
theorem lookupLabel_setLabel (tab : SymTab) (l m : LabelName) (a : Word) :
    lookupLabel (setLabel tab l a) m = if m = l then some a else lookupLabel tab m := by
  induction tab with
  | nil => simp [setLabel, lookupLabel]
  | cons e rest ih =>
    obtain ⟨k, b⟩ := e
    unfold setLabel
    by_cases h : l = k
    · subst h
      by_cases hm : m = l <;> simp [lookupLabel, hm]
    · by_cases hm : m = k
      · subst hm
        simp [lookupLabel, h, Ne.symm h]
      · simp [lookupLabel, h, hm, ih]

/-- What binding a record's label gives: nothing changes, or its label is bound (46_assembler R177). -/
theorem bindLabelOf_ok {policy : DupLabelPolicy} {r : Record} {a : Word} {tab tab' : SymTab}
    (h : bindLabelOf policy r a tab = .ok tab') :
    (r.label = none ∧ tab' = tab) ∨ ∃ l, r.label = some l ∧ tab' = setLabel tab l a := by
  cases hl : r.label with
  | none => simp [bindLabelOf, hl] at h; simp [h]
  | some l =>
    refine .inr ⟨l, rfl, ?_⟩
    unfold bindLabelOf at h
    simp only [hl] at h
    split at h <;> cases h <;> rfl

/-- Binding fails only under the policy ERROR, with `DuplicateLabel` at the record (46_assembler R177). -/
theorem bindLabelOf_error {policy : DupLabelPolicy} {r : Record} {a : Word} {tab : SymTab} {e : AsmError}
    (h : bindLabelOf policy r a tab = .error e) : policy = .error ∧ ∃ l, e = asmErrorAt r (.duplicateLabel l) := by
  cases hl : r.label with
  | none => simp [bindLabelOf, hl] at h
  | some l =>
    unfold bindLabelOf at h
    simp only [hl] at h
    split at h <;> first | (cases h; exact ⟨rfl, l, rfl⟩) | cases h

/-! ## Range checks -/

/-- A value in the range of a signed field comes back from the field by sign extension (46_assembler R192). -/
theorem sext_setWidth {n : Nat} (hn : 0 < n) (hn' : n ≤ 16) {v : Word}
    (h : -(2 ^ (n - 1) : Int) ≤ v.toInt ∧ v.toInt ≤ 2 ^ (n - 1) - 1) : sext (v.setWidth n) = v := by
  apply BitVec.eq_of_toInt_eq
  unfold sext
  rw [BitVec.toInt_signExtend_of_le hn', BitVec.toInt_setWidth]
  obtain ⟨m, rfl⟩ : ∃ m, n = m + 1 := ⟨n - 1, by omega⟩
  simp only [Nat.add_sub_cancel] at h
  have hp : ((2 : Int) ^ (m + 1)) = 2 * 2 ^ m := by ring
  have hmod : (v.toNat : Int).bmod (2 ^ (m + 1)) = v.toInt.bmod (2 ^ (m + 1)) := by
    rw [BitVec.toInt_eq_toNat_cond]
    split
    · rfl
    · obtain ⟨d, hd⟩ : (2 ^ (m + 1) : Nat) ∣ 2 ^ 16 := pow_dvd_pow 2 (by omega)
      rw [show ((2 : Nat) ^ 16 : Nat) = 2 ^ (m + 1) * d from hd]
      push_cast
      rw [show ((v.toNat : Int) - 2 ^ (m + 1) * d) = v.toNat - ((2 ^ (m + 1) : Nat) : Int) * d by push_cast; ring,
        Int.sub_mul_bmod_self_left]
  rw [hmod]
  apply Int.bmod_eq_of_le <;> push_cast <;> rw [hp] <;> omega

/-- Sign extension gives a value back from its low bits exactly when it is in the field's range (46_assembler R183). -/
theorem sext_setWidth_iff {n : Nat} (hn : 0 < n) (hn' : n ≤ 16) (v : Word) :
    sext (v.setWidth n) = v ↔ -(2 ^ (n - 1) : Int) ≤ v.toInt ∧ v.toInt ≤ 2 ^ (n - 1) - 1 := by
  refine ⟨fun h => ?_, sext_setWidth hn hn'⟩
  have hv : v.toInt = (v.setWidth n).toInt := by
    conv_lhs => rw [← h]
    unfold sext
    rw [BitVec.toInt_signExtend_of_le hn']
  have hlo := BitVec.le_toInt (v.setWidth n)
  have hhi := BitVec.toInt_lt (x := v.setWidth n)
  rw [hv]
  omega

/-- What a signed field check answers (46_assembler R183). -/
theorem signedField_cases (n : Nat) (v : Word) :
    (sext (v.setWidth n) = v ∧ signedField n v = .ok (v.setWidth n)) ∨
    (sext (v.setWidth n) ≠ v ∧
      signedField n v = .error (.immediateOverflow n v.toInt (-(2 ^ (n - 1))) (2 ^ (n - 1) - 1))) := by
  unfold signedField
  split
  · rename_i h; exact .inl ⟨h, rfl⟩
  · rename_i h; exact .inr ⟨h, rfl⟩

/-- What the trap vector check answers (46_assembler R184). -/
theorem vectorField_cases (v : Word) :
    (vectorField v = .ok (v.setWidth 8) ∧ 0 ≤ v.toInt ∧ v.toInt ≤ 255) ∨
    (vectorField v = .error (.immediateOverflow 8 v.toInt 0 255) ∧ ¬(0 ≤ v.toInt ∧ v.toInt ≤ 255)) := by
  unfold vectorField
  split
  · rename_i h; exact .inl ⟨rfl, h⟩
  · rename_i h; exact .inr ⟨rfl, h⟩

/-! ## The builder never meets operands of another shape -/

/-- The answer of a builder: an instruction of the operation, or a range error. -/
def BuildsFor (op : OpId) (r : Except AsmErrorKind Instr) : Prop :=
  (∃ i, r = .ok i ∧ i.operation = some (operationOf op)) ∨
  ∃ n v lo hi, r = .error (.immediateOverflow n v lo hi)

theorem buildsFor_signedField {op : OpId} {n : Nat} {v : Word} {mk : BitVec n → Instr}
    (h : ∀ f, (mk f).operation = some (operationOf op)) : BuildsFor op ((signedField n v).map mk) := by
  rcases signedField_cases n v with ⟨-, hf⟩ | ⟨-, hf⟩
  · exact .inl ⟨_, by rw [hf]; rfl, h _⟩
  · exact .inr ⟨_, _, _, _, by rw [hf]; rfl⟩

theorem buildsFor_vectorField {op : OpId} {v : Word} {mk : BitVec 8 → Instr}
    (h : ∀ f, (mk f).operation = some (operationOf op)) : BuildsFor op ((vectorField v).map mk) := by
  rcases vectorField_cases v with ⟨hf, -⟩ | ⟨hf, -⟩
  · exact .inl ⟨_, by rw [hf]; rfl, h _⟩
  · exact .inr ⟨_, _, _, _, by rw [hf]; rfl⟩

/-- A resolved operand is a register exactly where the operand was one. -/
theorem resolveOperand_shape {tab : SymTab} {a : Word} {x : Operand} {f : FieldValue}
    (h : resolveOperand tab a x = .ok f) :
    (∃ r, x = .reg r ∧ f = .reg r) ∨ (operandKind x ≠ .reg ∧ ∃ v, f = .value v) := by
  cases x with
  | reg r => simp [resolveOperand] at h; exact .inl ⟨r, rfl, h.symm⟩
  | imm v w raw => simp [resolveOperand] at h; exact .inr ⟨by simp [operandKind], v, h.symm⟩
  | label l =>
    simp only [resolveOperand] at h
    split at h
    · cases h; exact .inr ⟨by simp [operandKind], _, rfl⟩
    · cases h

theorem resolveOperands_cons {tab : SymTab} {a : Word} {x : Operand} {xs : List Operand} {fs : List FieldValue}
    (h : resolveOperands tab a (x :: xs) = .ok fs) :
    ∃ f gs, fs = f :: gs ∧ resolveOperand tab a x = .ok f ∧ resolveOperands tab a xs = .ok gs := by
  unfold resolveOperands at h
  cases hx : resolveOperand tab a x with
  | error e => simp [hx, bind, Except.bind] at h
  | ok f =>
    cases hxs : resolveOperands tab a xs with
    | error e => simp [hx, hxs, bind, Except.bind] at h
    | ok gs =>
      simp [hx, hxs, bind, Except.bind, pure, Except.pure] at h
      exact ⟨f, gs, h.symm, rfl, rfl⟩

theorem resolveOperands_nil {tab : SymTab} {a : Word} {fs : List FieldValue}
    (h : resolveOperands tab a [] = .ok fs) : fs = [] := by
  simpa [resolveOperands, eq_comm] using h

/-- A resolved operand fits a slot: a register where the slot takes registers only, a value where it takes none. -/
def Fits : Slot → FieldValue → Prop
  | .reg, f => ∃ r, f = .reg r
  | .regOrImm5, _ => True
  | .pcRel11OrReg, _ => True
  | .pcRel9, f => ∃ v, f = .value v
  | .imm6, f => ∃ v, f = .value v
  | .vec8, f => ∃ v, f = .value v

theorem fits_of_kind {tab : SymTab} {a : Word} {x : Operand} {f : FieldValue} {slot : Slot}
    (hk : operandKind x ∈ slotKinds slot) (h : resolveOperand tab a x = .ok f) : Fits slot f := by
  rcases resolveOperand_shape h with ⟨r, rfl, rfl⟩ | ⟨hx, v, rfl⟩
  · cases slot <;> simp [slotKinds, operandKind] at hk <;> simp [Fits]
  · cases slot <;> cases x <;> simp [slotKinds, operandKind] at hk hx <;> simp [Fits]

theorem fits_of_checked {tab : SymTab} {a : Word} : ∀ (slots : List Slot) (xs : List Operand) (fs : List FieldValue)
    (pos : Nat), xs.length = slots.length → kindMismatch pos slots xs = none → resolveOperands tab a xs = .ok fs →
    List.Forall₂ Fits slots fs
  | [], [], fs, _, _, _, h => by rw [resolveOperands_nil h]; exact .nil
  | [], _ :: _, _, _, hlen, _, _ => by simp at hlen
  | _ :: _, [], _, _, hlen, _, _ => by simp at hlen
  | slot :: slots, x :: xs, fs, pos, hlen, hk, h => by
    obtain ⟨f, gs, rfl, hf, hgs⟩ := resolveOperands_cons h
    unfold kindMismatch at hk
    split at hk
    · rename_i hmem
      exact .cons (fits_of_kind hmem hf) (fits_of_checked slots xs gs _ (by simpa using hlen) hk hgs)
    · cases hk

/-- Operands that pass the count and kind checks build an instruction of the operation or fail the range check:
the last arm of `toInstr` is never reached in `encodeRecord`. -/
theorem toInstr_of_checkShape {op : OpId} {xs : List Operand} {tab : SymTab} {a : Word} {fs : List FieldValue}
    (hshape : checkShape op xs = .ok ()) (hres : resolveOperands tab a xs = .ok fs) :
    BuildsFor op (toInstr op fs) := by
  have hfits : List.Forall₂ Fits (layout op) fs := by
    unfold checkShape at hshape
    split at hshape
    · cases hshape
    · rename_i hlen
      split at hshape
      · cases hshape
      · rename_i hk
        exact fits_of_checked _ _ _ 1 (by simpa using hlen) hk hres
  cases op
  case add | and =>
    obtain ⟨⟩ | ⟨⟨dr, rfl⟩, ⟨⟩ | ⟨⟨sr1, rfl⟩, ⟨⟩ | ⟨-, ⟨⟩⟩⟩⟩ := hfits
    rename_i f
    cases f
    · exact .inl ⟨_, rfl, rfl⟩
    · exact buildsFor_signedField fun _ => rfl
  case not =>
    obtain ⟨⟩ | ⟨⟨dr, rfl⟩, ⟨⟩ | ⟨⟨sr, rfl⟩, ⟨⟩⟩⟩ := hfits
    exact .inl ⟨_, rfl, rfl⟩
  case br =>
    obtain ⟨⟩ | ⟨⟨v, rfl⟩, ⟨⟩⟩ := hfits
    exact buildsFor_signedField fun _ => rfl
  case jmp =>
    obtain ⟨⟩ | ⟨⟨r, rfl⟩, ⟨⟩⟩ := hfits
    exact .inl ⟨_, rfl, rfl⟩
  case jsr =>
    obtain ⟨⟩ | ⟨-, ⟨⟩⟩ := hfits
    rename_i f
    cases f
    · exact .inl ⟨_, rfl, rfl⟩
    · exact buildsFor_signedField fun _ => rfl
  case ld | ldi | lea | st | sti =>
    obtain ⟨⟩ | ⟨⟨r, rfl⟩, ⟨⟩ | ⟨⟨v, rfl⟩, ⟨⟩⟩⟩ := hfits
    exact buildsFor_signedField fun _ => rfl
  case ldr | str =>
    obtain ⟨⟩ | ⟨⟨r, rfl⟩, ⟨⟩ | ⟨⟨b, rfl⟩, ⟨⟩ | ⟨⟨v, rfl⟩, ⟨⟩⟩⟩⟩ := hfits
    exact buildsFor_signedField fun _ => rfl
  case trap =>
    obtain ⟨⟩ | ⟨⟨v, rfl⟩, ⟨⟩⟩ := hfits
    exact buildsFor_vectorField fun _ => rfl
  case rti =>
    obtain ⟨⟩ := hfits
    exact .inl ⟨_, rfl, rfl⟩

end Sys2Proof.Laws
end

