-- ==== Sys2Proof/Laws/Memory.lean ====
section
/-! SUPPORT. The laws of memory: a read after a write, and the canonical form. -/

namespace Sys2Proof.Laws

open Sys2Proof.Machine

/-! ## Reading cells -/

theorem readCells_removeCell (cs : List Cell) (a b : Nat) :
    readCells (removeCell cs a) b = if b = a then unlisted else readCells cs b := by
  induction cs with
  | nil => simp [removeCell, readCells]
  | cons c rest ih =>
    obtain ⟨k, v⟩ := c
    by_cases hk : a = k
    · subst hk
      by_cases hb : b = a
      · simpa [removeCell, hb] using ih
      · simp [removeCell, readCells, ih, hb]
    · by_cases hb : b = k
      · subst hb
        simp [removeCell, readCells, hk, Ne.symm hk]
      · simp [removeCell, readCells, hk, hb, ih]

theorem removeCell_free (cs : List Cell) (a : Nat) : ∀ c ∈ removeCell cs a, c.1 ≠ a := by
  induction cs with
  | nil => simp [removeCell]
  | cons c rest ih =>
    obtain ⟨k, w⟩ := c
    unfold removeCell
    split
    · exact ih
    · rename_i hk
      intro c hc
      rcases List.mem_cons.mp hc with rfl | hc
      · exact Ne.symm hk
      · exact ih c hc

theorem readCells_insertCell_of_free (cs : List Cell) (a b : Nat) (v : Word) (hf : ∀ c ∈ cs, c.1 ≠ a) :
    readCells (insertCell cs a v) b = if b = a then v else readCells cs b := by
  induction cs with
  | nil => simp [insertCell, readCells]
  | cons c rest ih =>
    obtain ⟨k, w⟩ := c
    have hk : k ≠ a := hf _ (List.mem_cons_self ..)
    have := ih fun c hc => hf c (List.mem_cons_of_mem _ hc)
    unfold insertCell
    split
    · simp [readCells]
    · by_cases hb : b = k
      · subst hb; simp [readCells, hk]
      · simp [readCells, hb, this]

/-- Everything a write does to reads: it changes the word at its own address and no other (20_memory R41). -/
theorem read_write (m : Memory) (a b v : Word) : (m.write a v).read b = if b = a then v else m.read b := by
  have inj : b.toNat = a.toNat ↔ b = a := BitVec.toNat_inj
  unfold Memory.write Memory.read
  split
  · rename_i hv
    simp only [readCells_removeCell, inj, hv]
  · simp only [readCells_insertCell_of_free _ _ _ _ (removeCell_free _ _), readCells_removeCell, inj]
    split <;> rfl

@[simp] theorem read_write_same (m : Memory) (a v : Word) : (m.write a v).read a = v := by
  simp [read_write]

@[simp] theorem read_write_other (m : Memory) (a b v : Word) (h : b ≠ a) : (m.write a v).read b = m.read b := by
  simp [read_write, h]

@[simp] theorem read_empty (a : Word) : Memory.empty.read a = unlisted := rfl

/-! ## The canonical form -/

theorem cellsWf_mono {cs : List Cell} {lo hi : Nat} (h : cellsWf hi cs = true) (hle : lo ≤ hi) :
    cellsWf lo cs = true := by
  cases cs with
  | nil => rfl
  | cons c rest =>
    obtain ⟨k, v⟩ := c
    simp only [cellsWf, Bool.and_eq_true, decide_eq_true_eq] at h ⊢
    exact ⟨⟨⟨le_trans hle h.1.1.1, h.1.1.2⟩, h.1.2⟩, h.2⟩

theorem cellsWf_removeCell (cs : List Cell) (a : Nat) :
    ∀ lo, cellsWf lo cs = true → cellsWf lo (removeCell cs a) = true := by
  induction cs with
  | nil => intro lo _; rfl
  | cons c rest ih =>
    obtain ⟨k, v⟩ := c
    intro lo h
    simp only [cellsWf, Bool.and_eq_true, decide_eq_true_eq] at h
    unfold removeCell
    split
    · exact ih lo (cellsWf_mono h.2 (by omega))
    · simp only [cellsWf, Bool.and_eq_true, decide_eq_true_eq]
      exact ⟨h.1, ih _ h.2⟩

theorem cellsWf_insertCell (cs : List Cell) (a : Nat) (v : Word) (ha : a < 65536) (hv : v ≠ unlisted)
    (hf : ∀ c ∈ cs, c.1 ≠ a) : ∀ lo, lo ≤ a → cellsWf lo cs = true → cellsWf lo (insertCell cs a v) = true := by
  induction cs with
  | nil => intro lo hlo _; simp [insertCell, cellsWf, ha, hv, hlo]
  | cons c rest ih =>
    obtain ⟨k, w⟩ := c
    intro lo hlo h
    have hk : k ≠ a := hf _ (List.mem_cons_self ..)
    have h' := h
    simp only [cellsWf, Bool.and_eq_true, decide_eq_true_eq] at h
    unfold insertCell
    split
    · simp only [cellsWf, Bool.and_eq_true, decide_eq_true_eq]
      exact ⟨⟨⟨hlo, ha⟩, hv⟩, ⟨⟨by omega, h.1.1.2⟩, h.1.2⟩, h.2⟩
    · simp only [cellsWf, Bool.and_eq_true, decide_eq_true_eq]
      exact ⟨h.1, ih (fun c hc => hf c (List.mem_cons_of_mem _ hc)) _ (by omega) h.2⟩

/-- A write keeps the canonical form. -/
theorem wf_write (m : Memory) (a v : Word) (h : m.wf = true) : (m.write a v).wf = true := by
  unfold Memory.write
  split
  · exact cellsWf_removeCell _ _ _ h
  · rename_i hv
    exact cellsWf_insertCell _ _ _ a.isLt hv (removeCell_free _ _) _ (Nat.zero_le _) (cellsWf_removeCell _ _ _ h)

@[simp] theorem wf_empty : Memory.empty.wf = true := rfl

theorem readCells_below {cs : List Cell} {lo a : Nat} (h : cellsWf lo cs = true) (ha : a < lo) :
    readCells cs a = unlisted := by
  induction cs generalizing lo with
  | nil => rfl
  | cons c rest ih =>
    obtain ⟨k, v⟩ := c
    simp only [cellsWf, Bool.and_eq_true, decide_eq_true_eq] at h
    simp only [readCells, show a ≠ k by omega, if_false]
    exact ih h.2 (by omega)

/-! ## A memory from its contents -/

theorem cellsBelow_wf (f : Word → Word) (n : Nat) (hn : n ≤ 65536) :
    ∀ rest, cellsWf n rest = true → cellsWf 0 (cellsBelow f n rest) = true := by
  induction n with
  | zero => intro rest h; exact h
  | succ n ih =>
    intro rest h
    apply ih (by omega)
    split
    · exact cellsWf_mono h (by omega)
    · rename_i hv
      simp only [cellsWf, Bool.and_eq_true, decide_eq_true_eq]
      exact ⟨⟨⟨le_refl _, by omega⟩, hv⟩, h⟩

theorem readCells_cellsBelow (f : Word → Word) (n : Nat) (hn : n ≤ 65536) (a : Nat) :
    ∀ rest, cellsWf n rest = true →
      readCells (cellsBelow f n rest) a = if a < n then f (BitVec.ofNat 16 a) else readCells rest a := by
  induction n with
  | zero => intro rest _; simp [cellsBelow]
  | succ n ih =>
    intro rest h
    unfold cellsBelow
    rw [ih (by omega)]
    · by_cases han : a = n
      · subst han
        simp only [lt_irrefl, if_false, Nat.lt_succ_self, if_true]
        split
        · rename_i hv; rw [hv]; exact readCells_below h (by omega)
        · simp [readCells]
      · by_cases hlt : a < n
        · simp [hlt, Nat.lt_succ_of_lt hlt]
        · simp only [hlt, if_false, show ¬ a < n + 1 by omega]
          split
          · rfl
          · simp [readCells, han]
    · split
      · exact cellsWf_mono h (by omega)
      · rename_i hv
        simp only [cellsWf, Bool.and_eq_true, decide_eq_true_eq]
        exact ⟨⟨⟨le_refl _, by omega⟩, hv⟩, h⟩

/-- The memory of a function reads as the function (10_state R30). -/
@[simp] theorem read_ofFunction (f : Word → Word) (a : Word) : (Memory.ofFunction f).read a = f a := by
  have := readCells_cellsBelow f 65536 (le_refl _) a.toNat [] rfl
  simpa [Memory.read, Memory.ofFunction, a.isLt] using this

theorem wf_ofFunction (f : Word → Word) : (Memory.ofFunction f).wf = true := by
  have h := cellsBelow_wf f 65536 (le_refl _) [] rfl
  simpa only [Memory.wf, Memory.ofFunction] using h

theorem cellsBelow_unlisted (n : Nat) (rest : List Cell) : cellsBelow (fun _ => unlisted) n rest = rest := by
  induction n with
  | zero => rfl
  | succ n ih => unfold cellsBelow; simpa using ih

theorem ofFunction_unlisted : Memory.ofFunction (fun _ => unlisted) = Memory.empty :=
  congrArg Memory.mk (cellsBelow_unlisted 65536 [])

end Sys2Proof.Laws
end

