-- ==== Sys2Proof/Laws/State.lean ====
section
/-! SUPPORT. One lemma per field per update, and what reads give after updates. -/

namespace Sys2Proof.Laws

open Sys2Proof.Machine

variable (s : State)

/-! ## writeReg -/

@[simp] theorem writeReg_regs (i : RegIdx) (v : Word) : (s.writeReg i v).regs = s.regs.set i v := rfl
@[simp] theorem writeReg_pc (i : RegIdx) (v : Word) : (s.writeReg i v).pc = s.pc := rfl
@[simp] theorem writeReg_flags (i : RegIdx) (v : Word) : (s.writeReg i v).flags = s.flags := rfl
@[simp] theorem writeReg_psr (i : RegIdx) (v : Word) : (s.writeReg i v).psr = s.psr := rfl
@[simp] theorem writeReg_sspSaved (i : RegIdx) (v : Word) : (s.writeReg i v).sspSaved = s.sspSaved := rfl
@[simp] theorem writeReg_mem (i : RegIdx) (v : Word) : (s.writeReg i v).mem = s.mem := rfl

/-! ## writeMem -/

@[simp] theorem writeMem_regs (a v : Word) : (s.writeMem a v).regs = s.regs := rfl
@[simp] theorem writeMem_pc (a v : Word) : (s.writeMem a v).pc = s.pc := rfl
@[simp] theorem writeMem_flags (a v : Word) : (s.writeMem a v).flags = s.flags := rfl
@[simp] theorem writeMem_psr (a v : Word) : (s.writeMem a v).psr = s.psr := rfl
@[simp] theorem writeMem_sspSaved (a v : Word) : (s.writeMem a v).sspSaved = s.sspSaved := rfl
@[simp] theorem writeMem_mem (a v : Word) : (s.writeMem a v).mem = s.mem.write a v := rfl

/-! ## setPc -/

@[simp] theorem setPc_regs (v : Word) : (s.setPc v).regs = s.regs := rfl
@[simp] theorem setPc_pc (v : Word) : (s.setPc v).pc = v := rfl
@[simp] theorem setPc_flags (v : Word) : (s.setPc v).flags = s.flags := rfl
@[simp] theorem setPc_psr (v : Word) : (s.setPc v).psr = s.psr := rfl
@[simp] theorem setPc_sspSaved (v : Word) : (s.setPc v).sspSaved = s.sspSaved := rfl
@[simp] theorem setPc_mem (v : Word) : (s.setPc v).mem = s.mem := rfl

/-! ## setFlags -/

@[simp] theorem setFlags_regs (f : Flags) : (s.setFlags f).regs = s.regs := rfl
@[simp] theorem setFlags_pc (f : Flags) : (s.setFlags f).pc = s.pc := rfl
@[simp] theorem setFlags_flags (f : Flags) : (s.setFlags f).flags = f := rfl
@[simp] theorem setFlags_psr (f : Flags) : (s.setFlags f).psr = s.psr := rfl
@[simp] theorem setFlags_sspSaved (f : Flags) : (s.setFlags f).sspSaved = s.sspSaved := rfl
@[simp] theorem setFlags_mem (f : Flags) : (s.setFlags f).mem = s.mem := rfl

/-! ## setPsr -/

@[simp] theorem setPsr_regs (v : Word) : (s.setPsr v).regs = s.regs := rfl
@[simp] theorem setPsr_pc (v : Word) : (s.setPsr v).pc = s.pc := rfl
@[simp] theorem setPsr_flags (v : Word) : (s.setPsr v).flags = s.flags := rfl
@[simp] theorem setPsr_psr (v : Word) : (s.setPsr v).psr = v := rfl
@[simp] theorem setPsr_sspSaved (v : Word) : (s.setPsr v).sspSaved = s.sspSaved := rfl
@[simp] theorem setPsr_mem (v : Word) : (s.setPsr v).mem = s.mem := rfl

/-! ## setSspSaved -/

@[simp] theorem setSspSaved_regs (v : Word) : (s.setSspSaved v).regs = s.regs := rfl
@[simp] theorem setSspSaved_pc (v : Word) : (s.setSspSaved v).pc = s.pc := rfl
@[simp] theorem setSspSaved_flags (v : Word) : (s.setSspSaved v).flags = s.flags := rfl
@[simp] theorem setSspSaved_psr (v : Word) : (s.setSspSaved v).psr = s.psr := rfl
@[simp] theorem setSspSaved_sspSaved (v : Word) : (s.setSspSaved v).sspSaved = v := rfl
@[simp] theorem setSspSaved_mem (v : Word) : (s.setSspSaved v).mem = s.mem := rfl

/-! ## Reads after updates -/

/-- A register write changes the register it names and no other (10_state R21). -/
theorem readReg_writeReg (i j : RegIdx) (v : Word) :
    (s.writeReg i v).readReg j = if j = i then v else s.readReg j := by
  unfold State.readReg State.writeReg
  simp only [Fin.getElem_fin, Vector.getElem_set, Fin.val_inj]
  by_cases h : j = i
  · simp [h]
  · simp [h, Ne.symm h]

@[simp] theorem readReg_writeReg_same (i : RegIdx) (v : Word) : (s.writeReg i v).readReg i = v := by
  simp [readReg_writeReg]

@[simp] theorem readReg_writeReg_other (i j : RegIdx) (v : Word) (h : j ≠ i) :
    (s.writeReg i v).readReg j = s.readReg j := by
  simp [readReg_writeReg, h]

/-- A memory write changes the word it names and no other (20_memory R41). -/
theorem readMem_writeMem (a b v : Word) :
    (s.writeMem a v).readMem b = if b = a then v else s.readMem b :=
  read_write s.mem a b v

@[simp] theorem readMem_writeMem_same (a v : Word) : (s.writeMem a v).readMem a = v := by
  simp [readMem_writeMem]

@[simp] theorem readMem_writeMem_other (a b v : Word) (h : b ≠ a) : (s.writeMem a v).readMem b = s.readMem b := by
  simp [readMem_writeMem, h]

@[simp] theorem readReg_writeMem (a v : Word) (r : RegIdx) : (s.writeMem a v).readReg r = s.readReg r := rfl
@[simp] theorem readReg_setPc (v : Word) (r : RegIdx) : (s.setPc v).readReg r = s.readReg r := rfl
@[simp] theorem readReg_setFlags (f : Flags) (r : RegIdx) : (s.setFlags f).readReg r = s.readReg r := rfl
@[simp] theorem readReg_setPsr (v : Word) (r : RegIdx) : (s.setPsr v).readReg r = s.readReg r := rfl
@[simp] theorem readReg_setSspSaved (v : Word) (r : RegIdx) : (s.setSspSaved v).readReg r = s.readReg r := rfl

@[simp] theorem readMem_writeReg (i : RegIdx) (v : Word) (c : Word) : (s.writeReg i v).readMem c = s.readMem c := rfl
@[simp] theorem readMem_setPc (v : Word) (c : Word) : (s.setPc v).readMem c = s.readMem c := rfl
@[simp] theorem readMem_setFlags (f : Flags) (c : Word) : (s.setFlags f).readMem c = s.readMem c := rfl
@[simp] theorem readMem_setPsr (v : Word) (c : Word) : (s.setPsr v).readMem c = s.readMem c := rfl
@[simp] theorem readMem_setSspSaved (v : Word) (c : Word) : (s.setSspSaved v).readMem c = s.readMem c := rfl

@[simp] theorem incPc_writeReg (i : RegIdx) (v : Word) : (s.writeReg i v).incPc = s.incPc := rfl
@[simp] theorem incPc_writeMem (a v : Word) : (s.writeMem a v).incPc = s.incPc := rfl
@[simp] theorem incPc_setFlags (f : Flags) : (s.setFlags f).incPc = s.incPc := rfl
@[simp] theorem incPc_setPsr (v : Word) : (s.setPsr v).incPc = s.incPc := rfl
@[simp] theorem incPc_setSspSaved (v : Word) : (s.setSspSaved v).incPc = s.incPc := rfl

end Sys2Proof.Laws
end

