-- ==== Sys2Proof/Laws/Ops.lean ====
section
/-! SUPPORT. For each shared operation, everything it can do, said once. -/

namespace Sys2Proof.Laws

open Sys2Proof.Machine

variable (s : State)

/-! ## Flags -/

/-- `setcc` in terms of the signed value: N is negative, Z is zero, P is positive (40_fetch_decode R104). -/
theorem setcc_eq (v : Word) :
    setcc v = ⟨decide (v.toInt < 0), decide (v = 0), decide (0 < v.toInt)⟩ := by
  unfold setcc
  by_cases h0 : v = 0
  · subst h0; decide
  · have hne : v.toNat ≠ 0 := fun h => h0 (BitVec.eq_of_toNat_eq (by simpa using h))
    have hbit : v.getLsbD 15 = decide (32768 ≤ v.toNat) := by
      have := BitVec.msb_eq_decide v
      simpa [BitVec.msb_eq_getLsbD_last] using this
    have hlt := v.isLt
    simp only [h0, if_false, hbit, decide_eq_true_eq, BitVec.toInt_eq_toNat_cond, decide_false]
    split <;> split <;> first | omega | (simp only [Flags.mk.injEq, true_and, decide_eq_true_eq,
      eq_comm (a := true), eq_comm (a := false), decide_eq_false_iff_not]; omega)

/-- After `setcc` exactly one flag is true (10_state R25). -/
theorem setcc_exactlyOne (v : Word) :
    setcc v = ⟨true, false, false⟩ ∨ setcc v = ⟨false, true, false⟩ ∨ setcc v = ⟨false, false, true⟩ := by
  unfold setcc
  split
  · exact .inr (.inl rfl)
  · split
    · exact .inl rfl
    · exact .inr (.inr rfl)

/-! ## The pc -/

/-- The default next pc, as a number: it wraps at 65536 (00_scope R13). -/
theorem incPc_toNat : s.incPc.toNat = (s.pc.toNat + 1) % 65536 := by
  simp [State.incPc, BitVec.toNat_add]

/-! ## writeResult -/

@[simp] theorem writeResult_readReg (dr r : RegIdx) (v : Word) :
    (s.writeResult dr v).readReg r = if r = dr then v else s.readReg r :=
  readReg_writeReg s dr r v
@[simp] theorem writeResult_readMem (dr : RegIdx) (v a : Word) : (s.writeResult dr v).readMem a = s.readMem a := rfl
@[simp] theorem writeResult_flags (dr : RegIdx) (v : Word) : (s.writeResult dr v).flags = setcc v := rfl
@[simp] theorem writeResult_pc (dr : RegIdx) (v : Word) : (s.writeResult dr v).pc = s.incPc := rfl
@[simp] theorem writeResult_psr (dr : RegIdx) (v : Word) : (s.writeResult dr v).psr = s.psr := rfl
@[simp] theorem writeResult_sspSaved (dr : RegIdx) (v : Word) : (s.writeResult dr v).sspSaved = s.sspSaved := rfl
@[simp] theorem writeResult_mem (dr : RegIdx) (v : Word) : (s.writeResult dr v).mem = s.mem := rfl

/-! ## storeWord -/

@[simp] theorem storeWord_readMem (a v b : Word) :
    (s.storeWord a v).readMem b = if b = a then v else s.readMem b :=
  readMem_writeMem s a b v
@[simp] theorem storeWord_readReg (a v : Word) (r : RegIdx) : (s.storeWord a v).readReg r = s.readReg r := rfl
@[simp] theorem storeWord_flags (a v : Word) : (s.storeWord a v).flags = s.flags := rfl
@[simp] theorem storeWord_pc (a v : Word) : (s.storeWord a v).pc = s.incPc := rfl
@[simp] theorem storeWord_psr (a v : Word) : (s.storeWord a v).psr = s.psr := rfl
@[simp] theorem storeWord_sspSaved (a v : Word) : (s.storeWord a v).sspSaved = s.sspSaved := rfl
@[simp] theorem storeWord_mem (a v : Word) : (s.storeWord a v).mem = s.mem.write a v := rfl

/-! ## linkAndJump and callRegister -/

@[simp] theorem linkAndJump_readReg (t : Word) (r : RegIdx) :
    (s.linkAndJump t).readReg r = if r = linkReg then s.incPc else s.readReg r :=
  readReg_writeReg s linkReg r s.incPc
@[simp] theorem linkAndJump_readMem (t a : Word) : (s.linkAndJump t).readMem a = s.readMem a := rfl
@[simp] theorem linkAndJump_flags (t : Word) : (s.linkAndJump t).flags = s.flags := rfl
@[simp] theorem linkAndJump_pc (t : Word) : (s.linkAndJump t).pc = t := rfl
@[simp] theorem linkAndJump_psr (t : Word) : (s.linkAndJump t).psr = s.psr := rfl
@[simp] theorem linkAndJump_sspSaved (t : Word) : (s.linkAndJump t).sspSaved = s.sspSaved := rfl
@[simp] theorem linkAndJump_mem (t : Word) : (s.linkAndJump t).mem = s.mem := rfl

/-- The register call is a link and a jump; the two orders differ only in what a target read of R7 sees
(42_control R132). -/
theorem callRegister_eq (order : LinkOrder) (b : RegIdx) :
    s.callRegister order b =
      s.linkAndJump (if order = .linkFirst ∧ b = linkReg then s.incPc else s.readReg b) := by
  cases order with
  | linkFirst =>
    by_cases h : b = linkReg <;> simp [State.callRegister, State.linkAndJump, h]
  | targetFirst => simp [State.callRegister]

/-! ## The return from an interrupt -/

/-- Everything the return does: two pops, R6 up by 2 (45_system R161). -/
theorem returnFromInterrupt_spec :
    s.returnFromInterrupt.pc = s.readMem (s.readReg 6) ∧
    s.returnFromInterrupt.psr = s.readMem (s.readReg 6 + 1) ∧
    s.returnFromInterrupt.readReg 6 = s.readReg 6 + 2 ∧
    (∀ r, r ≠ 6 → s.returnFromInterrupt.readReg r = s.readReg r) ∧
    s.returnFromInterrupt.mem = s.mem ∧ s.returnFromInterrupt.flags = s.flags ∧
    s.returnFromInterrupt.sspSaved = s.sspSaved := by
  refine ⟨rfl, ?_, ?_, ?_, rfl, rfl, rfl⟩
  · simp [State.returnFromInterrupt, spReg]
  · simp only [State.returnFromInterrupt, spReg, readReg_setPc, readReg_writeReg_same, readReg_setPsr]
    rw [BitVec.add_assoc]; rfl
  · intro r hr
    simp [State.returnFromInterrupt, spReg, hr]

/-! ## Taking an interrupt -/

/-- Everything taking an interrupt does (60_exceptions R204): the stack pointers are exchanged, two words are
pushed, and the pc is read from the memory with the words pushed. -/
theorem takeInterrupt_spec (vector : Word) :
    (s.takeInterrupt vector).readReg 6 = s.sspSaved - 2 ∧
    (s.takeInterrupt vector).sspSaved = s.readReg 6 ∧
    (∀ r, r ≠ 6 → (s.takeInterrupt vector).readReg r = s.readReg r) ∧
    (s.takeInterrupt vector).mem = (s.mem.write (s.sspSaved - 2) s.pc).write (s.sspSaved - 2 + 1) s.psr ∧
    (s.takeInterrupt vector).pc = (s.takeInterrupt vector).readMem vector ∧
    (s.takeInterrupt vector).flags = s.flags ∧ (s.takeInterrupt vector).psr = s.psr := by
  refine ⟨?_, rfl, ?_, ?_, rfl, rfl, rfl⟩
  · simp [State.takeInterrupt, spReg]
  · intro r hr
    simp [State.takeInterrupt, spReg, hr]
  · simp [State.takeInterrupt, spReg]

end Sys2Proof.Laws
end

