-- ==== Sys2Proof/Machine/Ordered.lean ====
section
/-! DEFINITION. Executing and stepping with `JSRR_LINK_ORDER` as an argument (00_scope R9, D5). `exec` and `step`
are these at the spec's default. -/

namespace Sys2Proof.Machine

/-- An instruction's meaning in either order: the order is read by JSRR alone (42_control R132). -/
def execIn (order : LinkOrder) (i : Instr) (s : State) : Host.Outcome State Fault Refusal :=
  match i with
  | .jsrr baseR => execJsrrIn order baseR s
  | .br .. | .addReg .. | .addImm .. | .ld .. | .st .. | .jsr .. | .andReg .. | .andImm .. | .ldr .. | .str ..
  | .rti | .not .. | .ldi .. | .sti .. | .jmp .. | .unknown | .lea .. | .trap .. => exec i s

/-- `step()` in either order (40_fetch_decode R100). -/
def stepIn (order : LinkOrder) (s : State) : Host.Outcome State Fault Refusal := execIn order (decode s.fetch) s

end Sys2Proof.Machine
end

