-- ==== Sys2Proof/Machine/Surface.lean ====
section
/-! DEFINITION. The host's operations on the execution engine: the closed set of 00_scope R7, with what each
reports. What executes an instruction takes `JSRR_LINK_ORDER` as an argument (00_scope R9). The opcode table's two directions are in Decode.lean and `assemble` in Assembler.lean. -/

namespace Sys2Proof.Machine

/-! ## The step and what it reports -/

/-- The outcome that `step()` reports (40_fetch_decode R105). -/
inductive StepOutcome where
  /-- The operation was applied; `rd` is the reported read address, or NONE. -/
  | applied (rd : Option Word)
  /-- The word's opcode is reserved; nothing changed. -/
  | unrecognized
  /-- Part of the interface; no step produces it (D29). -/
  | invalid
  deriving DecidableEq, Repr

/-- The reported read address `rd`: LD's, LDI's final and LDR's address, NONE for every other operation
(40_fetch_decode R106). It is a result of the step, not state (10_state R29). -/
def reportedRead (i : Instr) (s : State) : Option Word :=
  match i with
  | .ld _ off => some (s.pcRelative off)
  | .ldi _ off => some (s.indirect off)
  | .ldr _ baseR off => some (s.baseOffset baseR off)
  | .br .. | .addReg .. | .addImm .. | .st .. | .jsrr .. | .jsr .. | .andReg .. | .andImm .. | .str .. | .rti
  | .not .. | .sti .. | .jmp .. | .unknown | .lea .. | .trap .. => none

/-- `step()` as the host calls it: the outcome, and the state after it. An unrecognized opcode leaves the state
as it was (40_fetch_decode R100, R103). -/
def hostStep (order : LinkOrder) (s : State) : StepOutcome × State :=
  match stepIn order s with
  | .next t => (.applied (reportedRead (decode s.fetch) s), t)
  | .fault (.unrecognized _ _) => (.unrecognized, s)
  | .refused _ => (.invalid, s)

/-! ## Reset and load -/

/-- `reset()`: the same effect from every state (70_reset_and_hazards R220). -/
def hostReset (p : ResetParams) (_s : State) : State := State.resetWith p

/-- Why a load fails (70_reset_and_hazards R222). -/
inductive LoadError where
  /-- The stream is empty: it has no origin word. -/
  | malformedObject
  /-- The payload would exceed the address space. -/
  | memoryLoadOutOfBounds
  deriving DecidableEq, Repr

/-- What `load` returns (70_reset_and_hazards R222). -/
inductive LoadResult where
  | ok
  | err (e : LoadError)
  deriving DecidableEq, Repr

/-- Write words at consecutive addresses from `a` on. -/
def State.writeWords (s : State) (a : Word) : List Word → State
  | [] => s
  | w :: ws => (s.writeMem a w).writeWords (a + 1) ws

/-- `load(stream)`: the words after the origin are copied to memory from the origin on. A failed load writes
nothing, and no load changes anything but memory (70_reset_and_hazards R222, R223). -/
def load (stream : List Word) (s : State) : LoadResult × State :=
  match stream with
  | [] => (.err .malformedObject, s)
  | o :: payload =>
    if 65536 < o.toNat + payload.length then (.err .memoryLoadOutOfBounds, s)
    else (.ok, s.writeWords o payload)

/-! ## Interrupt -/

/-- `interrupt(vector)`, called between steps (60_exceptions R203, R204). -/
def interrupt (vector : Word) (s : State) : State := s.takeInterrupt vector

/-! ## Run to halt -/

/-- What `run_to_halt` returns (70_reset_and_hazards R226). -/
inductive RunOutcome where
  | halted | budgetExhausted | unrecognized
  /-- Never produced (40_fetch_decode R105). -/
  | invalid
  deriving DecidableEq, Repr

/-- `run_to_halt(budget)`: the pc is tested against the halt sentinel before each step
(70_reset_and_hazards R226). `HALT_PC` is an argument (D17). -/
def runToHalt (order : LinkOrder) (haltPc : Word) : Nat → State → RunOutcome × State
  | 0, s => if s.pc = haltPc then (.halted, s) else (.budgetExhausted, s)
  | n + 1, s =>
    if s.pc = haltPc then (.halted, s)
    else
      match hostStep order s with
      | (.applied _, t) => runToHalt order haltPc n t
      | (.unrecognized, t) => (.unrecognized, t)
      | (.invalid, t) => (.invalid, t)

/-- `run_to_halt` with its optional budget returns `o` and leaves `t`. Without a budget it returns what some
budget is enough for, and a run for which none is enough does not return (70_reset_and_hazards R226). -/
def RunReturns (order : LinkOrder) (haltPc : Word) (budget : Option Nat) (s : State) (o : RunOutcome) (t : State) :
    Prop :=
  match budget with
  | some n => runToHalt order haltPc n s = (o, t)
  | none => o ≠ .budgetExhausted ∧ ∃ n, runToHalt order haltPc n s = (o, t)

/-! ## Read-only accessors (10_state R31) -/

/-- `read_reg(i)`. -/
def hostReadReg (i : RegIdx) (s : State) : Word := s.readReg i

/-- `read_pc()`. -/
def hostReadPc (s : State) : Word := s.pc

/-- `read_flags()`: `(N, Z, P)`. -/
def hostReadFlags (s : State) : Bool × Bool × Bool := (s.flags.n, s.flags.z, s.flags.p)

/-- `snapshot_memory()`: a copy of all 65536 words. -/
def snapshotMemory (s : State) : Vector Word 65536 := Vector.ofFn fun a => s.readMem (BitVec.ofFin a)

/-- `snapshot_regs()`: a copy of the 8 registers. -/
def snapshotRegs (s : State) : Vector Word 8 := s.regs

/-! ## The closed set of operations that change the state -/

/-- The operations of 00_scope R7 that can change the state. -/
inductive HostOp where
  | reset
  | load (stream : List Word)
  | step
  | runToHalt (haltPc : Word) (budget : Nat)
  | interrupt (vector : Word)
  deriving DecidableEq, Repr

/-- The state after a host operation. -/
def HostOp.apply (p : ResetParams) (order : LinkOrder) (op : HostOp) (s : State) : State :=
  match op with
  | .reset => hostReset p s
  | .load stream => (Sys2Proof.Machine.load stream s).2
  | .step => (hostStep order s).2
  | .runToHalt haltPc budget => (Sys2Proof.Machine.runToHalt order haltPc budget s).2
  | .interrupt vector => Sys2Proof.Machine.interrupt vector s

end Sys2Proof.Machine
end

