-- ==== Sys2Proof/Safety.lean ====
section
/-! DEFINITION. The terms that statements about the machine use: frames, footprints, invariants, reachable
states. -/

namespace Sys2Proof.Safety

open Sys2Proof.Machine

/-! ## Safe steps -/

/-- The word at the pc selects one of the 15 operations: a step from here is no fault. -/
def Recognized (s : State) : Prop := opcodeDecode s.fetch ≠ none

/-! ## Numbers -/

/-- The word is the number `x` modulo 2^16: how every address and data sum is taken (00_scope R13). -/
def IsMod (w : Word) (x : Int) : Prop := (w.toNat : Int) = x % 65536

/-- The word of a number: the instruction words that statements write out. -/
def wordOf (n : Nat) : Word := BitVec.ofNat 16 n

/-! ## Runs of steps -/

/-- `n` steps, each answering a next state, lead from one state to another, under one `JSRR_LINK_ORDER`. -/
inductive Steps (order : LinkOrder) : Nat → State → State → Prop where
  | none (s : State) : Steps order 0 s s
  | more {n : Nat} {s t u : State} : stepIn order s = .next t → Steps order n t u → Steps order (n + 1) s u

/-! ## Frames -/

/-- Every general register but those listed reads the same in both states. -/
def RegsKept (s t : State) (but : List RegIdx) : Prop := ∀ r, r ∉ but → t.readReg r = s.readReg r

/-- Every word of memory but those at the addresses listed reads the same in both states. -/
def MemKept (s t : State) (but : List Word) : Prop := ∀ a, a ∉ but → t.readMem a = s.readMem a

/-- The flags are the same in both states. -/
def FlagsKept (s t : State) : Prop := t.flags = s.flags

/-- `PSR` and the swap stack pointer are the same in both states. -/
def ControlKept (s t : State) : Prop := t.psr = s.psr ∧ t.sspSaved = s.sspSaved

/-- What an instruction that writes only `x[dr]` and the flags leaves in `t`: the result `v` in `x[dr]`, the flags
that `v` sets, the next pc, and everything else as it was (40_fetch_decode R104). -/
def ResultWritten (s t : State) (dr : RegIdx) (v : Word) : Prop :=
  t.readReg dr = v ∧
  (t.flags.n = true ↔ v.toInt < 0) ∧ (t.flags.z = true ↔ v.toNat = 0) ∧ (t.flags.p = true ↔ 0 < v.toInt) ∧
  IsMod t.pc ((s.pc.toNat : Int) + 1) ∧
  RegsKept s t [dr] ∧ MemKept s t [] ∧ ControlKept s t

/-- What an instruction that only moves the pc leaves in `t`. -/
def OnlyPcMoved (s t : State) (target : Word) : Prop :=
  t.pc = target ∧ RegsKept s t [] ∧ MemKept s t [] ∧ FlagsKept s t ∧ ControlKept s t

/-- What a call leaves in `t`: the return address in R7, the pc at the target, everything else as it was. -/
def Linked (s t : State) (target : Word) : Prop :=
  IsMod (t.readReg 7) ((s.pc.toNat : Int) + 1) ∧ t.pc = target ∧
  RegsKept s t [7] ∧ MemKept s t [] ∧ FlagsKept s t ∧ ControlKept s t

/-- What a store leaves in `t`: the word `v` at `a`, the next pc, everything else as it was. -/
def Stored (s t : State) (a v : Word) : Prop :=
  t.readMem a = v ∧ MemKept s t [a] ∧ IsMod t.pc ((s.pc.toNat : Int) + 1) ∧
  RegsKept s t [] ∧ FlagsKept s t ∧ ControlKept s t

/-- The two states agree on everything a program or the host can tell apart. -/
def SameState (s t : State) : Prop :=
  t.pc = s.pc ∧ RegsKept s t [] ∧ MemKept s t [] ∧ FlagsKept s t ∧ ControlKept s t

/-- Write each word of a list at its address, in order. -/
def writeAll : List (Word × Word) → State → State
  | [], s => s
  | (a, v) :: rest, s => writeAll rest (s.writeMem a v)

/-! ## Footprints -/

/-- The addresses an instruction reads, besides the fetch (20_memory R47). -/
def readsOf (i : Instr) (s : State) : List Word :=
  match i with
  | .ld _ off => [s.pcRelative off]
  | .ldi _ off => [s.pcRelative off, s.readMem (s.pcRelative off)]
  | .ldr _ baseR off => [s.baseOffset baseR off]
  | .sti _ off => [s.pcRelative off]
  | .trap vector => [zext vector]
  | .rti => [s.readReg 6, s.readReg 6 + 1]
  | .br .. | .addReg .. | .addImm .. | .st .. | .jsrr .. | .jsr .. | .andReg .. | .andImm .. | .str ..
  | .not .. | .jmp .. | .unknown | .lea .. => []

/-- The addresses an instruction writes (20_memory R47). -/
def writesOf (i : Instr) (s : State) : List Word :=
  match i with
  | .st _ off => [s.pcRelative off]
  | .sti _ off => [s.readMem (s.pcRelative off)]
  | .str _ baseR off => [s.baseOffset baseR off]
  | .br .. | .addReg .. | .addImm .. | .ld .. | .ldi .. | .ldr .. | .jsrr .. | .jsr .. | .andReg .. | .andImm ..
  | .rti | .not .. | .jmp .. | .unknown | .lea .. | .trap .. => []

/-- The destination of the seven operations that call `setcc`; none for every other (40_fetch_decode R104). -/
def setccDest : Instr → Option RegIdx
  | .addReg dr _ _ | .addImm dr _ _ | .andReg dr _ _ | .andImm dr _ _ | .not dr _ | .ld dr _ | .ldi dr _
  | .ldr dr _ _ | .lea dr _ => some dr
  | .br .. | .st .. | .jsrr .. | .jsr .. | .str .. | .rti | .sti .. | .jmp .. | .unknown | .trap .. => none

/-- The general registers an instruction writes (10_state R32). -/
def regsWritten : Instr → List RegIdx
  | .addReg dr _ _ | .addImm dr _ _ | .andReg dr _ _ | .andImm dr _ _ | .not dr _ | .ld dr _ | .ldi dr _
  | .ldr dr _ _ | .lea dr _ => [dr]
  | .jsr _ | .jsrr _ | .trap _ => [7]
  | .rti => [6]
  | .br .. | .st .. | .str .. | .sti .. | .jmp .. | .unknown => []

/-! ## Invariants and reachable states -/

/-- At most one of N, Z, P is true (10_state R25). -/
def AtMostOneFlag (s : State) : Prop :=
  ¬(s.flags.n = true ∧ s.flags.z = true) ∧ ¬(s.flags.n = true ∧ s.flags.p = true) ∧
  ¬(s.flags.z = true ∧ s.flags.p = true)

/-- Exactly one of N, Z, P is true (10_state R25). -/
def ExactlyOneFlag (s : State) : Prop :=
  AtMostOneFlag s ∧ (s.flags.n = true ∨ s.flags.z = true ∨ s.flags.p = true)

/-- The invariant of the machine: the flags are mutually exclusive (10_state R25) and the memory is in its one
canonical form. -/
def Inv (s : State) : Prop := AtMostOneFlag s ∧ s.mem.wf = true

/-- The states that the host can bring the machine to, from creation on, with the closed set of operations
(00_scope R7), for one choice of the open parameters. -/
inductive Reachable (p : ResetParams) (order : LinkOrder) : State → Prop where
  | created : Reachable p order (State.resetWith p)
  | after (s : State) (op : HostOp) : Reachable p order s → Reachable p order (op.apply p order s)

/-- A run ends normally exactly when the pc is at the halt sentinel at a step boundary
(70_reset_and_hazards R227). -/
def EndsNormally (haltPc : Word) (s : State) : Prop := s.pc = haltPc

/-! ## The assembler -/

/-- The number of `Instr` records in a list: the words it contributes (46_assembler R176, R186). -/
def instrCount : List Record → Nat
  | [] => 0
  | r :: rest =>
    match r.body with
    | .instr _ _ => instrCount rest + 1
    | .origin _ => instrCount rest
    | .noWord => instrCount rest

end Sys2Proof.Safety
end

