-- ==== Sys2Proof/Laws/Exec.lean ====
section
/-! SUPPORT. What an instruction and a step can do, said once; reset, load and the host's step. -/

namespace Sys2Proof.Laws

open Sys2Proof.Machine Sys2Proof.Safety

/-! ## One inversion for all instructions -/

/-- The next state of an instruction is one of five shapes: a result with its flags, a jump, a call, a store, a
return from interrupt. -/
inductive NextShape (i : Instr) (s : State) : State → Prop where
  | result (dr : RegIdx) (v : Word) : setccDest i = some dr → regsWritten i = [dr] → writesOf i s = [] → i ≠ .rti →
      NextShape i s (s.writeResult dr v)
  | jump (target : Word) : setccDest i = none → regsWritten i = [] → writesOf i s = [] → i ≠ .rti →
      NextShape i s (s.setPc target)
  | call (target : Word) : setccDest i = none → regsWritten i = [7] → writesOf i s = [] → i ≠ .rti →
      NextShape i s (s.linkAndJump target)
  | store (a v : Word) : setccDest i = none → regsWritten i = [] → writesOf i s = [a] → i ≠ .rti →
      NextShape i s (s.storeWord a v)
  | back : i = .rti → NextShape i s s.returnFromInterrupt

/-- `exec` is execution in the order `jsrrLinkOrder`. -/
theorem execIn_jsrrLinkOrder (i : Instr) (s : State) : execIn jsrrLinkOrder i s = exec i s := by
  cases i <;> rfl

/-- `step` is the step in the order `jsrrLinkOrder`. -/
theorem stepIn_jsrrLinkOrder (s : State) : stepIn jsrrLinkOrder s = step s := execIn_jsrrLinkOrder _ s

/-- Everything that executing an instruction can do, in either order: UNKNOWN faults with the record of its word, and
every other instruction answers a next state of one of the five shapes. -/
theorem execIn_cases (order : LinkOrder) (i : Instr) (s : State) :
    (i = .unknown ∧ execIn order i s = .fault (.unrecognized s.pc s.fetch)) ∨
    (i ≠ .unknown ∧ ∃ t, execIn order i s = .next t ∧ NextShape i s t) := by
  cases i
  case unknown => exact .inl ⟨rfl, rfl⟩
  case jsrr b =>
    refine .inr ⟨by simp, _, rfl, ?_⟩
    rw [callRegister_eq]
    exact .call _ rfl rfl rfl (by simp)
  case rti => exact .inr ⟨by simp, _, rfl, .back rfl⟩
  case br | jmp => exact .inr ⟨by simp, _, rfl, .jump _ rfl rfl rfl (by simp)⟩
  case jsr | trap => exact .inr ⟨by simp, _, rfl, .call _ rfl rfl rfl (by simp)⟩
  case st | sti | str => exact .inr ⟨by simp, _, rfl, .store _ _ rfl rfl rfl (by simp)⟩
  all_goals exact .inr ⟨by simp, _, rfl, .result _ _ rfl rfl rfl (by simp)⟩

/-- Everything that `exec` can do. -/
theorem exec_cases (i : Instr) (s : State) :
    (i = .unknown ∧ exec i s = .fault (.unrecognized s.pc s.fetch)) ∨
    (i ≠ .unknown ∧ ∃ t, exec i s = .next t ∧ NextShape i s t) := by
  simpa only [execIn_jsrrLinkOrder] using execIn_cases jsrrLinkOrder i s

/-- If an instruction answers a next state, that state is one of the five shapes, in either order. -/
theorem execIn_next {order : LinkOrder} {i : Instr} {s t : State} (h : execIn order i s = .next t) :
    NextShape i s t := by
  rcases execIn_cases order i s with ⟨-, hf⟩ | ⟨-, u, hu, hs⟩
  · simp [hf] at h
  · rw [hu] at h
    cases h
    exact hs

/-- If an instruction answers a next state, that state is one of the five shapes. -/
theorem exec_next {i : Instr} {s t : State} (h : exec i s = .next t) : NextShape i s t :=
  execIn_next ((execIn_jsrrLinkOrder i s).trans h)

/-! ## The host's step -/

/-- What the host's step does: it applies the decoded instruction, or reports an unrecognized opcode and changes
nothing (40_fetch_decode R100, R103). -/
theorem hostStep_cases (order : LinkOrder) (s : State) :
    (decode s.fetch = .unknown ∧ hostStep order s = (.unrecognized, s)) ∨
    (decode s.fetch ≠ .unknown ∧ ∃ t, stepIn order s = .next t ∧
      hostStep order s = (.applied (reportedRead (decode s.fetch) s), t)) := by
  unfold hostStep stepIn
  rcases execIn_cases order (decode s.fetch) s with ⟨hu, hf⟩ | ⟨hu, t, ht, -⟩
  · exact .inl ⟨hu, by simp [hf]⟩
  · exact .inr ⟨hu, t, ht, by simp [ht]⟩

/-! ## Reset -/

/-- `State.reset` is the reset state of the spec at the model's values of the open parameters. -/
theorem reset_eq_resetWith : State.reset = State.resetWith resetParams := by
  have h : Memory.ofFunction resetParams.memInit = Memory.empty := ofFunction_unlisted
  unfold State.reset State.resetWith
  rw [h]

/-! ## Load -/

@[simp] theorem writeWords_pc (ws : List Word) : ∀ (s : State) (a : Word), (s.writeWords a ws).pc = s.pc := by
  induction ws with
  | nil => intro s a; rfl
  | cons w ws ih => intro s a; simp [State.writeWords, ih]

@[simp] theorem writeWords_readReg (ws : List Word) (r : RegIdx) :
    ∀ (s : State) (a : Word), (s.writeWords a ws).readReg r = s.readReg r := by
  induction ws with
  | nil => intro s a; rfl
  | cons w ws ih => intro s a; simp [State.writeWords, ih]

@[simp] theorem writeWords_flags (ws : List Word) : ∀ (s : State) (a : Word), (s.writeWords a ws).flags = s.flags := by
  induction ws with
  | nil => intro s a; rfl
  | cons w ws ih => intro s a; simp [State.writeWords, ih]

@[simp] theorem writeWords_psr (ws : List Word) : ∀ (s : State) (a : Word), (s.writeWords a ws).psr = s.psr := by
  induction ws with
  | nil => intro s a; rfl
  | cons w ws ih => intro s a; simp [State.writeWords, ih]

@[simp] theorem writeWords_sspSaved (ws : List Word) :
    ∀ (s : State) (a : Word), (s.writeWords a ws).sspSaved = s.sspSaved := by
  induction ws with
  | nil => intro s a; rfl
  | cons w ws ih => intro s a; simp [State.writeWords, ih]

/-- Writing words keeps the memory's canonical form. -/
theorem writeWords_wf (ws : List Word) :
    ∀ (s : State) (a : Word), s.mem.wf = true → (s.writeWords a ws).mem.wf = true := by
  induction ws with
  | nil => intro s a h; exact h
  | cons w ws ih => intro s a h; exact ih _ _ (wf_write _ _ _ h)

/-- What memory reads after words are written at consecutive addresses that stay inside the address space. -/
theorem readMem_writeWords (ws : List Word) : ∀ (s : State) (a b : Word), a.toNat + ws.length ≤ 65536 →
    (s.writeWords a ws).readMem b =
      if a.toNat ≤ b.toNat ∧ b.toNat < a.toNat + ws.length then ws.getD (b.toNat - a.toNat) 0 else s.readMem b := by
  have hw : ∀ (s : State) (a b v : Word), (s.writeMem a v).readMem b = if b = a then v else s.readMem b :=
    fun _ _ _ _ => read_write _ _ _ _
  induction ws with
  | nil => intro s a b _; rw [if_neg (by simp)]; rfl
  | cons w ws ih =>
    intro s a b h
    simp only [List.length_cons] at h ⊢
    unfold State.writeWords
    by_cases hnil : ws = []
    · subst hnil
      simp only [State.writeWords, hw, List.length_nil]
      by_cases hb : b = a
      · subst hb; simp
      · have hne : b.toNat ≠ a.toNat := fun e => hb (BitVec.eq_of_toNat_eq e)
        rw [if_neg hb, if_neg (by omega)]
    · have hl : 0 < ws.length := List.length_pos_of_ne_nil hnil
      have ha : (a + 1).toNat = a.toNat + 1 := by rw [BitVec.toNat_add]; simp; omega
      rw [ih _ (a + 1) b (by omega), ha, hw]
      by_cases hb : b = a
      · subst hb
        rw [if_neg (by omega), if_pos rfl, if_pos (by omega)]; simp
      · have hne : b.toNat ≠ a.toNat := fun e => hb (BitVec.eq_of_toNat_eq e)
        by_cases hin : a.toNat + 1 ≤ b.toNat ∧ b.toNat < a.toNat + 1 + ws.length
        · rw [if_pos hin, if_pos (by omega), show b.toNat - a.toNat = (b.toNat - (a.toNat + 1)) + 1 by omega]
          rfl
        · rw [if_neg hin, if_neg hb, if_neg (by omega)]

end Sys2Proof.Laws
end

