-- ==== Sys2Proof/Laws/Encoding.lean ====
section
/-! SUPPORT. The bits of encoded words, and what the decoder's field reads give on them. -/

namespace Sys2Proof.Laws

/-! ## Bits of placed fields -/

theorem testBit_reg (r : RegIdx) {i : Nat} (h : 3 ≤ i) : r.val.testBit i = false :=
  Nat.testBit_lt_two_pow (lt_of_lt_of_le r.isLt (Nat.pow_le_pow_right (n := 2) (by decide) h))

@[simp] theorem getLsbD_placeReg (r : RegIdx) (o i : Nat) :
    (placeReg r o).getLsbD i = (decide (i < 16) && decide (o ≤ i) && decide (i < o + 3) && r.val.testBit (i - o)) := by
  unfold placeReg
  simp only [BitVec.getLsbD_shiftLeft, BitVec.getLsbD_ofNat]
  by_cases h1 : i < 16
  · by_cases h2 : o ≤ i
    · by_cases h3 : i < o + 3
      · simp [h1, h2, h3, show ¬ i < o by omega, show i - o < 16 by omega]
      · simp [h3, testBit_reg r (show 3 ≤ i - o by omega)]
    · simp [h2, show i < o by omega]
  · simp [h1]

@[simp] theorem getLsbD_placeBit (b : Bool) (o i : Nat) :
    (placeBit b o).getLsbD i = (decide (i < 16) && decide (i = o) && b) := by
  unfold placeBit
  simp only [BitVec.getLsbD_shiftLeft]
  cases b with
  | false => simp
  | true =>
    by_cases h1 : i < 16
    · by_cases h2 : i = o
      · subst h2; simp [h1]
      · simp [h1, h2]; omega
    · simp [h1]

/-- A register field reads `r` when its three bits are those of `r`. -/
theorem regField_eq {w : Word} {lo : Nat} {r : RegIdx}
    (h : ∀ k < 3, w.getLsbD (lo + k) = r.val.testBit k) : regField w lo = r := by
  have : (w.extractLsb' lo 3) = BitVec.ofFin (w := 3) r := by
    apply BitVec.eq_of_getLsbD_eq
    intro k hk
    simp only [BitVec.getLsbD_extractLsb', hk, decide_true, Bool.true_and, h k hk]
    rfl
  unfold regField
  rw [this]

/-- A field of `n` bits reads `f` when its bits are those of `f`. -/
theorem extract_eq {n lo : Nat} {w : Word} {f : BitVec n} (h : ∀ k < n, w.getLsbD (lo + k) = f.getLsbD k) :
    w.extractLsb' lo n = f := by
  apply BitVec.eq_of_getLsbD_eq
  intro k hk
  simp only [BitVec.getLsbD_extractLsb', hk, decide_true, Bool.true_and, h k hk]

/-! ## The opcode field -/

/-- The bits of a placed opcode are the code, in bits 15..12. -/
theorem getLsbD_opcodeBits (op : Operation) (i : Nat) :
    (opcodeBits op).getLsbD i = (decide (12 ≤ i) && (codeIn opcodes op).getLsbD (i - 12)) := by
  unfold opcodeBits
  simp only [BitVec.getLsbD_shiftLeft, BitVec.getLsbD_setWidth]
  by_cases h2 : 12 ≤ i
  · by_cases h1 : i < 16
    · simp [h1, h2, show ¬ i < 12 by omega, show i - 12 < 16 by omega]
    · simp [h1, h2, show 4 ≤ i - 12 by omega]
  · simp [h2, show i < 12 by omega]

/-- Operand fields stay out of the opcode field. -/
theorem getLsbD_operandBits_high (i : Instr) (k : Nat) (h : 12 ≤ k) : (operandBits i).getLsbD k = false := by
  have hn : ∀ {n : Nat} (f : BitVec n), n ≤ 12 → f.getLsbD k = false :=
    fun f hf => BitVec.getLsbD_of_ge f k (by omega)
  cases i <;> simp [operandBits, BitVec.getLsbD_setWidth, hn] <;> omega

/-- The opcode field of an encoded word is the code of its operation. -/
theorem extract_opcode (op : Operation) (x : Word) (hx : ∀ k, 12 ≤ k → x.getLsbD k = false) :
    (opcodeBits op ||| x).extractLsb' 12 4 = codeIn opcodes op := by
  apply extract_eq
  intro k _
  simp [getLsbD_opcodeBits, hx (12 + k) (by omega)]

/-- The table gives each operation's code back the operation (30_encoding R64). -/
theorem operationIn_codeIn (op : Operation) : operationIn opcodes (codeIn opcodes op) = some op := by
  cases op <;> decide

/-- The opcode of a placed opcode with any operand bits below it (30_encoding R63). -/
theorem opcodeDecode_encoded (op : Operation) (x : Word) (hx : ∀ k, 12 ≤ k → x.getLsbD k = false) :
    opcodeDecode (opcodeBits op ||| x) = some op := by
  unfold opcodeDecode
  rw [extract_opcode op x hx, operationIn_codeIn]

/-- The word of an instruction, and its operation, when it has an encoding. -/
theorem encode_eq_some {i : Instr} {w : Word} (h : encode i = some w) :
    ∃ op, i.operation = some op ∧ w = opcodeBits op ||| operandBits i := by
  unfold encode at h
  cases ho : i.operation with
  | none => simp [ho] at h
  | some op => simp [ho] at h; exact ⟨op, rfl, h.symm⟩

/-- Exactly the well-formed instructions have an encoding (30_encoding R63). -/
theorem encode_isSome (i : Instr) : (encode i).isSome = i.wellFormed := by
  cases i <;> rfl

/-- A bit of an encoded word below the opcode field is the operand's bit. -/
theorem getLsbD_encoded_low (op : Operation) (x : Word) (k : Nat) (h : k < 12) :
    (opcodeBits op ||| x).getLsbD k = x.getLsbD k := by
  simp [getLsbD_opcodeBits, show ¬ 12 ≤ k by omega]

end Sys2Proof.Laws
end

