-- ==== Sys2Proof/Laws/PerInstr.lean ====
section
/-! SUPPORT. Statements made per instruction (LAWS.json): one lemma per constructor of Instr. -/

namespace Sys2Proof.Laws.EncodedOpcode

/-- The word of an instruction carries the opcode of its operation: `opcode_decode` of the encoding is the
operation (30_encoding R62, R63). -/
def Statement (i : Instr) : Prop := ∀ w, encode i = some w → opcodeDecode w = i.operation

/-- The shared proof: operand fields stay below the opcode field. -/
theorem of_encode {i : Instr} {w : Word} (h : encode i = some w) : opcodeDecode w = i.operation := by
  obtain ⟨op, hop, rfl⟩ := encode_eq_some h
  rw [hop, opcodeDecode_encoded op _ (getLsbD_operandBits_high i)]

theorem br (n z p : Bool) (off : BitVec 9) : Statement (.br n z p off) := fun _ => of_encode
theorem addReg (dr sr1 sr2 : RegIdx) : Statement (.addReg dr sr1 sr2) := fun _ => of_encode
theorem addImm (dr sr1 : RegIdx) (imm : BitVec 5) : Statement (.addImm dr sr1 imm) := fun _ => of_encode
theorem ld (dr : RegIdx) (off : BitVec 9) : Statement (.ld dr off) := fun _ => of_encode
theorem st (sr : RegIdx) (off : BitVec 9) : Statement (.st sr off) := fun _ => of_encode
theorem jsrr (baseR : RegIdx) : Statement (.jsrr baseR) := fun _ => of_encode
theorem jsr (off : BitVec 11) : Statement (.jsr off) := fun _ => of_encode
theorem andReg (dr sr1 sr2 : RegIdx) : Statement (.andReg dr sr1 sr2) := fun _ => of_encode
theorem andImm (dr sr1 : RegIdx) (imm : BitVec 5) : Statement (.andImm dr sr1 imm) := fun _ => of_encode
theorem ldr (dr baseR : RegIdx) (off : BitVec 6) : Statement (.ldr dr baseR off) := fun _ => of_encode
theorem str (sr baseR : RegIdx) (off : BitVec 6) : Statement (.str sr baseR off) := fun _ => of_encode
theorem rti : Statement .rti := fun _ => of_encode
theorem not (dr sr : RegIdx) : Statement (.not dr sr) := fun _ => of_encode
theorem ldi (dr : RegIdx) (off : BitVec 9) : Statement (.ldi dr off) := fun _ => of_encode
theorem sti (sr : RegIdx) (off : BitVec 9) : Statement (.sti sr off) := fun _ => of_encode
theorem jmp (baseR : RegIdx) : Statement (.jmp baseR) := fun _ => of_encode
theorem unknown : Statement .unknown := fun _ => of_encode
theorem lea (dr : RegIdx) (off : BitVec 9) : Statement (.lea dr off) := fun _ => of_encode
theorem trap (vector : BitVec 8) : Statement (.trap vector) := fun _ => of_encode

end Sys2Proof.Laws.EncodedOpcode
end

