-- ==== Sys2Proof/Certificates/Slice0/Obligations.lean ====
section
/-! DEFINITION. The statements for the provers. Words are written out as numbers from the formats of 30_encoding
R67, results as numbers modulo 2^16, so that no statement repeats the definition it is about. -/

open Sys2Proof Sys2Proof.Machine Sys2Proof.Safety

/-! ## Encoding -/

/-- Words of the spec's examples, one for every family, decode to the instruction they stand for. -/
def Obligations.SpecExampleWordsDecode : Prop :=
  decode 0x14BB = .addImm 2 2 0b11011 ∧ decode 0x1482 = .addReg 2 2 2 ∧ decode 0x506F = .andImm 0 1 15 ∧
  decode 0x9700 = .not 3 4 ∧ decode 0x0201 = .br false false true 1 ∧ decode 0xC1C0 = .jmp 7 ∧
  decode 0x4805 = .jsr 5 ∧ decode 0x4100 = .jsrr 4 ∧ decode 0x2206 = .ld 1 6 ∧ decode 0xA401 = .ldi 2 1 ∧
  decode 0x673F = .ldr 3 4 0b111111 ∧ decode 0xE1FE = .lea 0 0b111111110 ∧ decode 0x3404 = .st 2 4 ∧
  decode 0xB202 = .sti 1 2 ∧ decode 0x7180 = .str 0 6 0 ∧ decode 0xF025 = .trap 0x25 ∧ decode 0x8000 = .rti ∧
  decode 0xD123 = .unknown

/-- 30_encoding R75: exactly one of the 19 match and mask rows matches each word, and the decoder's instruction is
that row's. -/
def Obligations.ExactlyOneOpcodeRowMatchesEachWord : Prop :=
  ∀ w : Word,
    (opcodeRows.filter (rowMatches w)).length = 1 ∧
    ∀ row ∈ opcodeRows, rowMatches w row = true → (decode w).mnemonic = row.1

/-- Decode and encode agree: every well-formed instruction, with every operand at every value, has a word that
decodes to it; UNKNOWN has none (30_encoding R63, R67; 46_assembler R185). -/
def Obligations.DecodeOfEncodeIsTheInstruction : Prop :=
  ∀ i : Instr,
    (i.wellFormed = true → ∃ w, encode i = some w ∧ decode w = i) ∧
    (i.wellFormed = false → i = .unknown ∧ encode i = none)

/-- The other direction: a word that is not of the reserved opcode encodes back to itself with the ignored bits
cleared (30_encoding R68, R75). -/
def Obligations.EncodeOfDecodeClearsIgnoredBits : Prop :=
  ∀ w : Word, w.toNat / 4096 ≠ 13 → encode (decode w) = some (w &&& ~~~ ignoredMask (decode w))

/-- 30_encoding R68: the bits a format does not read do not change what a word decodes to, and the encoder writes 0
in every such bit. -/
def Obligations.IgnoredBitsDoNotMatter : Prop :=
  (∀ w x : Word, w &&& 0xF020 = 0x1000 → decode (w ^^^ (x &&& 0x0018)) = decode w) ∧
  (∀ w x : Word, w &&& 0xF020 = 0x5000 → decode (w ^^^ (x &&& 0x0018)) = decode w) ∧
  (∀ w x : Word, w &&& 0xF000 = 0x9000 → decode (w ^^^ (x &&& 0x003F)) = decode w) ∧
  (∀ w x : Word, w &&& 0xF000 = 0xC000 → decode (w ^^^ (x &&& 0x0E3F)) = decode w) ∧
  (∀ w x : Word, w &&& 0xF800 = 0x4000 → decode (w ^^^ (x &&& 0x063F)) = decode w) ∧
  (∀ w x : Word, w &&& 0xF000 = 0xF000 → decode (w ^^^ (x &&& 0x0F00)) = decode w) ∧
  (∀ w x : Word, w &&& 0xF000 = 0x8000 → decode (w ^^^ (x &&& 0x0FFF)) = decode w) ∧
  (∀ dr sr1 sr2 w, encode (.addReg dr sr1 sr2) = some w → w &&& 0x0018 = 0) ∧
  (∀ dr sr1 sr2 w, encode (.andReg dr sr1 sr2) = some w → w &&& 0x0018 = 0) ∧
  (∀ dr sr w, encode (.not dr sr) = some w → w &&& 0x003F = 0) ∧
  (∀ baseR w, encode (.jmp baseR) = some w → w &&& 0x0E3F = 0) ∧
  (∀ baseR w, encode (.jsrr baseR) = some w → w &&& 0x063F = 0) ∧
  (∀ vector w, encode (.trap vector) = some w → w &&& 0x0F00 = 0) ∧
  encode .rti = some 0x8000

/-- The opcode table in both directions (30_encoding R62, R63, R65): the code of each of the 15 operations, the code
1101 of none, UNKNOWN refused, and the round trip with any bits below the opcode. The codes other than ADD's are the
spec's decision D1, and that 1101 is UNKNOWN and not encoded its decision D2. -/
def Obligations.OpcodeTableIsABijection : Prop :=
  (∀ (op : Operation) (c : Nat),
    (op, c) ∈ [(Operation.br, 0), (.add, 1), (.ld, 2), (.st, 3), (.jsr, 4), (.and, 5), (.ldr, 6), (.str, 7),
      (.rti, 8), (.not, 9), (.ldi, 10), (.sti, 11), (.jmp, 12), (.lea, 14), (.trap, 15)] →
    opcodeEncode (some op) = some (wordOf (4096 * c)) ∧
    ∀ w : Word, opcodeDecode w = some op ↔ w.toNat / 4096 = c) ∧
  (∀ w : Word, opcodeDecode w = none ↔ w.toNat / 4096 = 13) ∧
  opcodeEncode none = none ∧
  ∀ (op : Operation) (f : Nat), f ≤ 0x0FFF →
    ∃ e, opcodeEncode (some op) = some e ∧ opcodeDecode (e ||| wordOf f) = some op

/-- 00_scope R12: sign extension from width `n` replicates bit `n - 1` into all higher bits, which is the
two's-complement value of the field. -/
def Obligations.SignExtensionReplicatesTheSignBit : Prop :=
  ∀ (n : Nat), 0 < n → n ≤ 16 → ∀ v : Word,
    (v.getLsbD (n - 1) = false → sext (v.extractLsb' 0 n) = wordOf (v.toNat % 2 ^ n)) ∧
    (v.getLsbD (n - 1) = true →
      sext (v.extractLsb' 0 n) = ((0xFFFF : Word) <<< n) ||| wordOf (v.toNat % 2 ^ n)) ∧
    (sext (v.extractLsb' 0 n)).toInt = (v.extractLsb' 0 n).toInt

/-! ## Condition codes -/

/-- 40_fetch_decode R104: `setcc` on every value; exactly seven operations call it, each on the value it writes to
`x[dr]`; no other changes the flags, nor does `interrupt`, and `setcc` does not write `PSR`. -/
def Obligations.SetccFollowsTheSignedResult : Prop :=
  (∀ v : Word, v = 0x0000 → setcc v = ⟨false, true, false⟩) ∧
  (∀ v : Word, v ≠ 0x0000 → v.getLsbD 15 = true → setcc v = ⟨true, false, false⟩) ∧
  (∀ v : Word, v ≠ 0x0000 → v.getLsbD 15 = false → setcc v = ⟨false, false, true⟩) ∧
  (∀ i s t dr, exec i s = .next t → setccDest i = some dr → t.flags = setcc (t.readReg dr) ∧ t.psr = s.psr) ∧
  (∀ i s t, exec i s = .next t → setccDest i = none → t.flags = s.flags) ∧
  (∀ v s, (interrupt v s).flags = s.flags)

/-- Only BR reads the flags, and only the seven operations of `setcc` write them (10_state R24): on a state with
other flags, every other instruction gives the same next state but for flags it does not write. TRAP, JSR, RTI and
`interrupt` leave them unchanged. -/
def Obligations.OnlyBranchesReadTheFlags : Prop :=
  (∀ i s t f, exec i s = .next t → (∀ n z p off, i ≠ .br n z p off) →
    exec i (s.setFlags f) = .next (if setccDest i = none then t.setFlags f else t)) ∧
  (∀ n z p off s f t, exec (.br n z p off) s = .next t → t.flags = s.flags ∧
    (branchTaken n z p f = branchTaken n z p s.flags →
      exec (.br n z p off) (s.setFlags f) = .next (t.setFlags f))) ∧
  (∀ v s, (interrupt v s).flags = s.flags)

/-! ## Operate instructions -/

/-- 41_operate R120: ADD, both forms: encoding, the sum modulo 2^16, the flags from it, and nothing else written. -/
def Obligations.AddWritesTheWrappedSum : Prop :=
  (∀ (dr sr1 sr2 : RegIdx) (ignored : Fin 4),
    decode (wordOf (0x1000 + 512 * dr.val + 64 * sr1.val + 8 * ignored.val + sr2.val)) = .addReg dr sr1 sr2) ∧
  (∀ (dr sr1 : RegIdx) (imm : BitVec 5),
    decode (wordOf (0x1000 + 512 * dr.val + 64 * sr1.val + 32 + imm.toNat)) = .addImm dr sr1 imm) ∧
  (∀ dr sr1 sr2 s, ∃ t v, exec (.addReg dr sr1 sr2) s = .next t ∧
    IsMod v (((s.readReg sr1).toNat : Int) + (s.readReg sr2).toNat) ∧ ResultWritten s t dr v) ∧
  (∀ dr sr1 imm s, ∃ t v, exec (.addImm dr sr1 imm) s = .next t ∧
    IsMod v (((s.readReg sr1).toNat : Int) + imm.toInt) ∧ ResultWritten s t dr v)

/-- 41_operate R121: AND, both forms, bit by bit; the immediate's bit 4 stands in every higher bit. The opcode is
R65's. -/
def Obligations.AndWritesTheBitwiseAnd : Prop :=
  (∀ (dr sr1 sr2 : RegIdx) (ignored : Fin 4),
    decode (wordOf (0x5000 + 512 * dr.val + 64 * sr1.val + 8 * ignored.val + sr2.val)) = .andReg dr sr1 sr2) ∧
  (∀ (dr sr1 : RegIdx) (imm : BitVec 5),
    decode (wordOf (0x5000 + 512 * dr.val + 64 * sr1.val + 32 + imm.toNat)) = .andImm dr sr1 imm) ∧
  (∀ dr sr1 sr2 s, ∃ t v, exec (.andReg dr sr1 sr2) s = .next t ∧
    (∀ k < 16, v.getLsbD k = ((s.readReg sr1).getLsbD k && (s.readReg sr2).getLsbD k)) ∧ ResultWritten s t dr v) ∧
  (∀ dr sr1 imm s, ∃ t v, exec (.andImm dr sr1 imm) s = .next t ∧
    (∀ k < 16, v.getLsbD k = ((s.readReg sr1).getLsbD k && imm.getLsbD (min k 4))) ∧ ResultWritten s t dr v)

/-- 41_operate R122: NOT, `r = 0xFFFF - x[sr]`. The opcode is R65's. -/
def Obligations.NotWritesTheComplement : Prop :=
  (∀ (dr sr : RegIdx) (ignored : Fin 64), decode (wordOf (0x9000 + 512 * dr.val + 64 * sr.val + ignored.val)) = .not dr sr) ∧
  (∀ dr sr s, ∃ t v, exec (.not dr sr) s = .next t ∧
    v.toNat = 0xFFFF - (s.readReg sr).toNat ∧ ResultWritten s t dr v)

/-! ## Control transfers -/

/-- 42_control R130: BR goes to `PC_f + 1 + sext(off9)` exactly when a flag of its mask is set, else to the next
instruction; it writes nothing else. The opcode is R65's. -/
def Obligations.BranchGoesWhenAMaskedFlagIsSet : Prop :=
  (∀ (n z p : Bool) (off : BitVec 9),
    decode (wordOf (2048 * n.toNat + 1024 * z.toNat + 512 * p.toNat + off.toNat)) = .br n z p off) ∧
  (∀ n z p off s, ∃ t target, exec (.br n z p off) s = .next t ∧ OnlyPcMoved s t target ∧
    ((n = true ∧ s.flags.n = true) ∨ (z = true ∧ s.flags.z = true) ∨ (p = true ∧ s.flags.p = true) →
      IsMod target ((s.pc.toNat : Int) + 1 + off.toInt)) ∧
    (¬((n = true ∧ s.flags.n = true) ∨ (z = true ∧ s.flags.z = true) ∨ (p = true ∧ s.flags.p = true)) →
      IsMod target ((s.pc.toNat : Int) + 1)))

/-- 42_control R131: JMP goes to the address in `x[baseR]`; JMP R7 is RET, word 0xC1C0 (30_encoding R72). The opcode
is R65's. -/
def Obligations.JumpGoesToTheBaseRegister : Prop :=
  (∀ (baseR : RegIdx) (high : Fin 8) (low : Fin 64),
    decode (wordOf (0xC000 + 512 * high.val + 64 * baseR.val + low.val)) = .jmp baseR) ∧
  encode (.jmp 7) = some 0xC1C0 ∧
  (∀ baseR s, ∃ t, exec (.jmp baseR) s = .next t ∧ OnlyPcMoved s t (s.readReg baseR))

/-- 42_control R132, in either order of the register form (`JSRR_LINK_ORDER`, D5): JSR saves `PC_f + 1` in R7 and
goes to `PC_f + 1 + sext(off11)`; JSRR to `x[baseR]`, and the orders differ only for `baseR = 7`. The order is an
argument of `execIn` (00_scope R9); `exec` is `execIn` in the model's order, log 8. -/
def Obligations.CallSavesTheReturnAddress : Prop :=
  (∀ off : BitVec 11, decode (wordOf (0x4800 + off.toNat)) = .jsr off) ∧
  (∀ (baseR : RegIdx) (high : Fin 4) (low : Fin 64),
    decode (wordOf (0x4000 + 512 * high.val + 64 * baseR.val + low.val)) = .jsrr baseR) ∧
  (∀ off s, ∃ t target, exec (.jsr off) s = .next t ∧ IsMod target ((s.pc.toNat : Int) + 1 + off.toInt) ∧
    Linked s t target) ∧
  (∀ baseR s, baseR ≠ 7 → ∃ t, exec (.jsrr baseR) s = .next t ∧ Linked s t (s.readReg baseR)) ∧
  (∀ baseR s order, baseR ≠ 7 → Linked s (s.callRegister order baseR) (s.readReg baseR)) ∧
  (∀ s, Linked s (s.callRegister .targetFirst 7) (s.readReg 7)) ∧
  (∀ s, ∃ target, IsMod target ((s.pc.toNat : Int) + 1) ∧ Linked s (s.callRegister .linkFirst 7) target) ∧
  (∀ order baseR s, execIn order (.jsrr baseR) s = .next (s.callRegister order baseR)) ∧
  (∀ order i s, (∀ baseR, i ≠ .jsrr baseR) → execIn order i s = exec i s) ∧
  (∀ i s, exec i s = execIn jsrrLinkOrder i s)

/-- The MODEL'S CHOICE of `JSRR_LINK_ORDER` is the spec's default, LINK_FIRST (D5, log 8): JSRR R7 goes to
`PC_f + 1`. -/
def Obligations.RegisterCallThroughR7LinksFirst : Prop :=
  ∀ s, ∃ t target, exec (.jsrr 7) s = .next t ∧ IsMod target ((s.pc.toNat : Int) + 1) ∧ Linked s t target

/-! ## Loads and LEA -/

/-- 43_load R140: LD reads the word at `PC_f + 1 + sext(off9)` into `x[dr]`, sets the flags from it and reports that
address. The opcode is R65's. -/
def Obligations.LoadReadsThePcRelativeWord : Prop :=
  (∀ (dr : RegIdx) (off : BitVec 9), decode (wordOf (0x2000 + 512 * dr.val + off.toNat)) = .ld dr off) ∧
  (∀ dr off s, ∃ t a, exec (.ld dr off) s = .next t ∧ IsMod a ((s.pc.toNat : Int) + 1 + off.toInt) ∧
    ResultWritten s t dr (s.readMem a) ∧ reportedRead (.ld dr off) s = some a)

/-- 43_load R141: LDI reads through the word at `PC_f + 1 + sext(off9)` and reports the final address. The opcode is
R65's. -/
def Obligations.LoadIndirectReadsThroughThePointer : Prop :=
  (∀ (dr : RegIdx) (off : BitVec 9), decode (wordOf (0xA000 + 512 * dr.val + off.toNat)) = .ldi dr off) ∧
  (∀ dr off s, ∃ t p, exec (.ldi dr off) s = .next t ∧ IsMod p ((s.pc.toNat : Int) + 1 + off.toInt) ∧
    ResultWritten s t dr (s.readMem (s.readMem p)) ∧ reportedRead (.ldi dr off) s = some (s.readMem p))

/-- 43_load R142: LDR reads the word at `x[baseR] + sext(off6)`, from the old base even when `dr = baseR`, and reports
that address. The opcode is R65's. -/
def Obligations.LoadBaseOffsetReadsTheWord : Prop :=
  (∀ (dr baseR : RegIdx) (off : BitVec 6),
    decode (wordOf (0x6000 + 512 * dr.val + 64 * baseR.val + off.toNat)) = .ldr dr baseR off) ∧
  (∀ dr baseR off s, ∃ t a, exec (.ldr dr baseR off) s = .next t ∧
    IsMod a (((s.readReg baseR).toNat : Int) + off.toInt) ∧
    ResultWritten s t dr (s.readMem a) ∧ reportedRead (.ldr dr baseR off) s = some a)

/-- 43_load R143: LEA writes the address `PC_f + 1 + sext(off9)` itself and sets the flags from it; it reads no memory
and reports no address. The opcode is R65's. -/
def Obligations.LeaWritesTheAddress : Prop :=
  (∀ (dr : RegIdx) (off : BitVec 9), decode (wordOf (0xE000 + 512 * dr.val + off.toNat)) = .lea dr off) ∧
  (∀ dr off s, ∃ t a, exec (.lea dr off) s = .next t ∧ IsMod a ((s.pc.toNat : Int) + 1 + off.toInt) ∧
    ResultWritten s t dr a ∧ reportedRead (.lea dr off) s = none) ∧
  (∀ dr off s m, ∃ t, exec (.lea dr off) s = .next t ∧
    exec (.lea dr off) { s with mem := m } = .next { t with mem := m })

/-! ## Stores -/

/-- 44_store R150: ST stores `x[sr]` at `PC_f + 1 + sext(off9)` and changes no other word, no register and no flag.
The opcode is R65's. -/
def Obligations.StoreWritesThePcRelativeWord : Prop :=
  (∀ (sr : RegIdx) (off : BitVec 9), decode (wordOf (0x3000 + 512 * sr.val + off.toNat)) = .st sr off) ∧
  (∀ sr off s, ∃ t, exec (.st sr off) s = .next t ∧ IsMod (s.pcRelative off) ((s.pc.toNat : Int) + 1 + off.toInt) ∧
    Stored s t (s.pcRelative off) (s.readReg sr))

/-- 44_store R151: STI stores at the address that the word at `PC_f + 1 + sext(off9)` held before the store, and reports
no address. The opcode is R65's. -/
def Obligations.StoreIndirectWritesThroughThePointer : Prop :=
  (∀ (sr : RegIdx) (off : BitVec 9), decode (wordOf (0xB000 + 512 * sr.val + off.toNat)) = .sti sr off) ∧
  (∀ sr off s, ∃ t, exec (.sti sr off) s = .next t ∧ IsMod (s.pcRelative off) ((s.pc.toNat : Int) + 1 + off.toInt) ∧
    Stored s t (s.readMem (s.pcRelative off)) (s.readReg sr) ∧ reportedRead (.sti sr off) s = none)

/-- 44_store R152: STR stores `x[sr]` at `x[baseR] + sext(off6)`. The opcode is R65's. -/
def Obligations.StoreBaseOffsetWritesTheWord : Prop :=
  (∀ (sr baseR : RegIdx) (off : BitVec 6),
    decode (wordOf (0x7000 + 512 * sr.val + 64 * baseR.val + off.toNat)) = .str sr baseR off) ∧
  (∀ sr baseR off s, ∃ t, exec (.str sr baseR off) s = .next t ∧
    IsMod (s.baseOffset baseR off) (((s.readReg baseR).toNat : Int) + off.toInt) ∧
    Stored s t (s.baseOffset baseR off) (s.readReg sr))

/-- A store is seen by the next fetch (20_memory R52): where the next instruction's word is the one stored, the next
step runs the stored word. -/
def Obligations.StoredWordIsFetchedNext : Prop :=
  (∀ sr off s t, exec (.st sr off) s = .next t → t.pc = s.pcRelative off →
    step t = exec (decode (s.readReg sr)) t) ∧
  (∀ sr off s t, exec (.sti sr off) s = .next t → t.pc = s.readMem (s.pcRelative off) →
    step t = exec (decode (s.readReg sr)) t) ∧
  (∀ sr baseR off s t, exec (.str sr baseR off) s = .next t → t.pc = s.baseOffset baseR off →
    step t = exec (decode (s.readReg sr)) t) ∧
  (∀ sr s, ∃ t, exec (.st sr 0) s = .next t ∧ step t = exec (decode (s.readReg sr)) t)

/-! ## System instructions -/

/-- TRAP (45_system R160): the return address goes to R7 and the pc to the word of the trap table; no push, no swap, no
flag and no `PSR`. That the vector is zero-extended is the spec's decision D4. -/
def Obligations.TrapCallsThroughTheTable : Prop :=
  (∀ (vector : BitVec 8) (ignored : Fin 16),
    decode (wordOf (0xF000 + 256 * ignored.val + vector.toNat)) = .trap vector) ∧
  (∀ vector s, ∃ t, exec (.trap vector) s = .next t ∧ Linked s t (s.readMem (wordOf vector.toNat)))

/-- RTI (45_system R161): the pc and then `PSR` are popped from the R6 stack, and nothing else changes. That `PSR` is
apart from N, Z, P is the spec's decision D6, and that there is no swap back its decision D7. -/
def Obligations.ReturnFromInterruptPopsPcAndPsr : Prop :=
  (∀ ignored : Fin 4096, decode (wordOf (0x8000 + ignored.val)) = .rti) ∧
  (∀ s, ∃ t second, exec .rti s = .next t ∧ IsMod second (((s.readReg 6).toNat : Int) + 1) ∧
    t.pc = s.readMem (s.readReg 6) ∧ t.psr = s.readMem second ∧ IsMod (t.readReg 6) (((s.readReg 6).toNat : Int) + 2) ∧
    RegsKept s t [6] ∧ MemKept s t [] ∧ FlagsKept s t ∧ t.sspSaved = s.sspSaved)

/-- The reserved opcode (40_fetch_decode R103, decision D9): the stop is the fault `unrecognized` with the record
`(PC_f, w)` (the model's bookkeeping, log 12); the host's step reports `Unrecognized` and changes nothing, however
often it is called, in either order of JSRR. -/
def Obligations.ReservedOpcodeIsUnrecognizedAndChangesNothing : Prop :=
  (∀ ignored : Fin 4096, decode (wordOf (0xD000 + ignored.val)) = .unknown) ∧
  (∀ s, exec .unknown s = .fault (.unrecognized s.pc (s.readMem s.pc))) ∧
  (∀ order s, (s.readMem s.pc).toNat / 4096 = 13 →
    hostStep order s = (.unrecognized, s) ∧ ∀ n : Nat, (fun u => (hostStep order u).2)^[n] s = s)

/-! ## The step -/

/-- A step runs the decoded instruction: whatever instruction the word at the pc decodes to, `step` is its meaning on
the same state; the meaning itself commits the next pc (40_fetch_decode R100). The same holds for either order of
JSRR, of which `step` takes the model's (log 8). The host's step reports a well-formed instruction as applied, with
its read address, and leaves that next state. -/
def Obligations.StepRunsTheDecodedInstruction : Prop :=
  ∀ s i, decode (s.readMem s.pc) = i →
    step s = exec i s ∧ step s = stepIn jsrrLinkOrder s ∧
    ∀ order, stepIn order s = execIn order i s ∧
      (i.wellFormed = true →
        ∃ t, stepIn order s = .next t ∧ hostStep order s = (.applied (reportedRead i s), t))

/-- Execution raises nothing but the outcome for the reserved opcode (60_exceptions R200, 40_fetch_decode R103): from
EVERY state a step answers a next state unless bits 15..12 of the word at the pc are 1101, in either order of JSRR. That
this stop is a fault with the record `(PC_f, w)` is the model's bookkeeping (log 12; R201, decision D9); that no
outcome is `Invalid` is decision D29 (R105, log 23). -/
def Obligations.StepStopsExactlyOnTheReservedOpcode : Prop :=
  ∀ s,
    ((s.readMem s.pc).toNat / 4096 ≠ 13 → (∃ t, step s = .next t) ∧
      ∀ order, ∃ t rd, stepIn order s = .next t ∧ hostStep order s = (.applied rd, t)) ∧
    ((s.readMem s.pc).toNat / 4096 = 13 → step s = .fault (.unrecognized s.pc (s.readMem s.pc)) ∧
      ∀ order, stepIn order s = .fault (.unrecognized s.pc (s.readMem s.pc))) ∧
    ∀ order, (hostStep order s).1 ≠ .invalid

/-- The reported read address (40_fetch_decode R106, decision D8): LD, LDI and LDR report theirs, every other
operation reports none. -/
def Obligations.OnlyLoadsReportAReadAddress : Prop :=
  (∀ dr off s, ∃ a, reportedRead (.ld dr off) s = some a ∧ IsMod a ((s.pc.toNat : Int) + 1 + off.toInt)) ∧
  (∀ dr off s, ∃ p, reportedRead (.ldi dr off) s = some (s.readMem p) ∧ IsMod p ((s.pc.toNat : Int) + 1 + off.toInt)) ∧
  (∀ dr baseR off s, ∃ a, reportedRead (.ldr dr baseR off) s = some a ∧
    IsMod a (((s.readReg baseR).toNat : Int) + off.toInt)) ∧
  (∀ i s, (∀ dr off, i ≠ .ld dr off) → (∀ dr off, i ≠ .ldi dr off) → (∀ dr baseR off, i ≠ .ldr dr baseR off) →
    reportedRead i s = none)

/-! ## Who writes and who reads what -/

/-- The table of 10_state R32: each piece of state is written only by the operations listed for it. -/
def Obligations.StateIsWrittenOnlyAsTheTableSays : Prop :=
  (∀ i s t, exec i s = .next t →
    RegsKept s t (regsWritten i) ∧ MemKept s t (writesOf i s) ∧ (setccDest i = none → FlagsKept s t) ∧
    (i ≠ .rti → t.psr = s.psr) ∧ t.sspSaved = s.sspSaved) ∧
  (∀ v s, RegsKept s (interrupt v s) [6] ∧ FlagsKept s (interrupt v s) ∧ (interrupt v s).psr = s.psr ∧
    MemKept s (interrupt v s) [s.sspSaved - 2, s.sspSaved - 1]) ∧
  (∀ stream s, (load stream s).2.pc = s.pc ∧ RegsKept s (load stream s).2 [] ∧ FlagsKept s (load stream s).2 ∧
    ControlKept s (load stream s).2)

/-- The memory accesses of each operation (20_memory R47): on two states that agree on everything but memory, and on
the words an instruction reads, the instruction does the same to both: same registers, pc, flags and `PSR`, the same
addresses written with the same words, and no other word changed. -/
def Obligations.InstructionsReadOnlyTheirFootprint : Prop :=
  ∀ i s m t, exec i s = .next t → (∀ a ∈ readsOf i s, s.readMem a = m.read a) →
    ∃ t', exec i { s with mem := m } = .next t' ∧ { t' with mem := t.mem } = t ∧
      writesOf i { s with mem := m } = writesOf i s ∧
      (∀ a ∈ writesOf i s, t'.readMem a = t.readMem a) ∧
      (∀ a, a ∉ writesOf i s → t'.readMem a = m.read a ∧ t.readMem a = s.readMem a)

/-- 10_state R27: no instruction reads or writes the swap stack pointer, nor does `load`; `interrupt` exchanges it with
R6 (which it then lowers by 2); reset gives it `RESET_SP_SAVED`. -/
def Obligations.NoInstructionTouchesTheSwapStackPointer : Prop :=
  (∀ i s t x, exec i s = .next t →
    t.sspSaved = s.sspSaved ∧ exec i (s.setSspSaved x) = .next (t.setSspSaved x)) ∧
  (∀ s x, exec .unknown (s.setSspSaved x) = exec .unknown s) ∧
  (∀ v s, (interrupt v s).sspSaved = s.readReg 6 ∧
    IsMod ((interrupt v s).readReg 6) ((s.sspSaved.toNat : Int) - 2)) ∧
  (∀ stream s, (load stream s).2.sspSaved = s.sspSaved) ∧
  (∀ p s, (hostReset p s).sspSaved = p.resetSpSaved)

/-- `PSR` is opaque and apart from the flags (10_state R26, decision D6): only RTI writes it and only `interrupt` reads
it, all 16 bits as they are. -/
def Obligations.NoInstructionReadsPsr : Prop :=
  (∀ i s t x, exec i s = .next t → exec i (s.setPsr x) = .next (if i = .rti then t else t.setPsr x)) ∧
  (∀ v s, (interrupt v s).psr = s.psr ∧ (interrupt v s).readMem (s.sspSaved - 1) = s.psr) ∧
  (∀ s t, exec .rti s = .next t → t.psr = s.readMem (s.readReg 6 + 1) ∧ t.flags = s.flags)

/-! ## Memory -/

/-- 20_memory R41: `MemRead` and `MemWrite` on every address and word: a write changes its own word and no other, and
no other state. -/
def Obligations.MemoryReadsBackWhatWasWritten : Prop :=
  ∀ (s : State) (a v : Word),
    (s.writeMem a v).readMem a = v ∧ MemKept s (s.writeMem a v) [a] ∧ RegsKept s (s.writeMem a v) [] ∧
    (s.writeMem a v).pc = s.pc ∧ FlagsKept s (s.writeMem a v) ∧ ControlKept s (s.writeMem a v)

/-- A read returns the most recent earlier write, or `MEM_INIT` where there was none (20_memory R50), after any
sequence of writes from the reset state, for every choice of the open parameters. -/
def Obligations.MemoryReturnsTheMostRecentWrite : Prop :=
  ∀ (p : ResetParams) (before : List (Word × Word)) (a : Word),
    (∀ v after, (∀ e ∈ after, e.1 ≠ a) →
      (writeAll (before ++ (a, v) :: after) (State.resetWith p)).readMem a = v) ∧
    ((∀ e ∈ before, e.1 ≠ a) → (writeAll before (State.resetWith p)).readMem a = p.memInit a)

/-! ## Reset -/

/-- 10_state R30 and 70_reset_and_hazards R220: after `reset()`, from any state and for EVERY choice of the open
parameters, every piece of state holds its reset value. -/
def Obligations.ResetGivesEveryPieceItsValue : Prop :=
  ∀ (p : ResetParams) (s : State),
    (hostReset p s).pc = p.resetPc ∧
    (∀ r : RegIdx, r ≠ 6 → (hostReset p s).readReg r = 0x0000) ∧
    (hostReset p s).readReg 6 = p.resetSpActive ∧
    (hostReset p s).sspSaved = p.resetSpSaved ∧
    ((hostReset p s).flags.n = true ↔ p.resetNzp = .n) ∧
    ((hostReset p s).flags.z = true ↔ p.resetNzp = .z) ∧
    ((hostReset p s).flags.p = true ↔ p.resetNzp = .p) ∧
    (hostReset p s).psr = p.resetPsr ∧
    (∀ a, (hostReset p s).readMem a = p.memInit a)

/-- The MODEL'S CHOICES for the open parameters (logs 2 to 7): `State.reset` is the spec's reset state at these values;
0x3000 is the spec's default for `RESET_PC` (D11). -/
def Obligations.ModelResetIsTheSpecResetAtItsChoices : Prop :=
  State.reset = State.resetWith resetParams ∧
  State.reset.pc = 0x3000 ∧ (∀ r, State.reset.readReg r = 0x0000) ∧ State.reset.sspSaved = 0x0000 ∧
  State.reset.flags = ⟨false, false, false⟩ ∧ State.reset.psr = 0x0000 ∧ ∀ a, State.reset.readMem a = 0x0000

/-! ## Invariants -/

/-- Every step keeps the invariant, from every state that has it: the flags are mutually exclusive (10_state R25) and
memory is in its canonical form (the model's representation, log 11). -/
def Obligations.EveryStepKeepsTheInvariant : Prop :=
  ∀ s t, Safety.Inv s → step s = .next t → Safety.Inv t

/-- The invariant holds after reset, for every choice of the open parameters: at most one flag is set (10_state R25), and
memory is in its canonical form, which is the model's choice of representation (log 11) and no rule of the spec. -/
def Obligations.ResetHasTheInvariant : Prop :=
  (∀ p, Safety.Inv (State.resetWith p)) ∧ Safety.Inv State.reset

/-- Every operation of the host's closed set keeps the invariant, so it holds in every state the host can bring the
machine to (00_scope R7, 10_state R25), for every choice of the open parameters. That memory is in its canonical form is
the model's choice of representation (log 11) and no rule of the spec. -/
def Obligations.EveryReachableStateHasTheInvariant : Prop :=
  (∀ p order op s, Safety.Inv s → Safety.Inv (HostOp.apply p order op s)) ∧
  (∀ p order s, Reachable p order s → Safety.Inv s)

/-- The flags over time (10_state R25): after any of the seven operations exactly one is set, and from then on exactly
one stays set through every step, interrupt and load. Until then the flags hold what reset gave them. -/
def Obligations.ExactlyOneFlagEverAfterSetcc : Prop :=
  (∀ i s t dr, exec i s = .next t → setccDest i = some dr → ExactlyOneFlag t) ∧
  (∀ order s t n, ExactlyOneFlag s → Steps order n s t → ExactlyOneFlag t) ∧
  (∀ s v, ExactlyOneFlag s → ExactlyOneFlag (interrupt v s)) ∧
  (∀ s stream, ExactlyOneFlag s → ExactlyOneFlag (load stream s).2) ∧
  (∀ i s t, exec i s = .next t → setccDest i = none → t.flags = s.flags)

/-! ## Interrupts -/

/-- `interrupt(vector)` (60_exceptions R204; the width of the vector is decision D10): the stack pointers are
exchanged, the new R6 is lowered by 2, the pc and then `PSR` are pushed, and the new pc is read after the pushes. -/
def Obligations.InterruptSwapsStacksPushesAndVectors : Prop :=
  ∀ (vector : Word) (s : State), ∃ low high,
    IsMod low ((s.sspSaved.toNat : Int) - 2) ∧ IsMod high ((s.sspSaved.toNat : Int) - 1) ∧
    (interrupt vector s).readReg 6 = low ∧ (interrupt vector s).sspSaved = s.readReg 6 ∧
    (interrupt vector s).readMem low = s.pc ∧ (interrupt vector s).readMem high = s.psr ∧
    MemKept s (interrupt vector s) [low, high] ∧
    (interrupt vector s).pc = (interrupt vector s).readMem vector ∧
    RegsKept s (interrupt vector s) [6] ∧ FlagsKept s (interrupt vector s) ∧ (interrupt vector s).psr = s.psr

/-- Interrupts are precise and RTI returns to the next instruction (60_exceptions R205, R206): an RTI right after an
interrupt brings back the pc, `PSR`, the flags and every register but R6, with the stack pointers left exchanged
(R207, decision D7). -/
def Obligations.ReturnRightAfterInterruptResumes : Prop :=
  ∀ (vector : Word) (s : State), ∃ t, exec .rti (interrupt vector s) = .next t ∧
    t.pc = s.pc ∧ t.psr = s.psr ∧ FlagsKept s t ∧ RegsKept s t [6] ∧
    t.readReg 6 = s.sspSaved ∧ t.sspSaved = s.readReg 6 ∧ MemKept s t [s.sspSaved - 2, s.sspSaved - 1]

/-- Nesting (60_exceptions R207): a second interrupt pushes onto the stack that was active before the first; with
R6 = A and `SSP_SAVED` = B, two interrupts and two RTIs end with R6 = A + 2 and `SSP_SAVED` = B - 2. -/
def Obligations.NestedInterruptsLeaveTheStacksShifted : Prop :=
  ∀ (v v' : Word) (s : State), ∃ t u,
    (interrupt v' (interrupt v s)).readReg 6 = s.readReg 6 - 2 ∧
    (interrupt v' (interrupt v s)).sspSaved = s.sspSaved - 2 ∧
    (interrupt v' (interrupt v s)).readMem (s.readReg 6 - 2) = (interrupt v s).pc ∧
    exec .rti (interrupt v' (interrupt v s)) = .next t ∧ t.pc = (interrupt v s).pc ∧ t.psr = s.psr ∧
    exec .rti t = .next u ∧ u.pc = t.readMem (s.readReg 6) ∧ u.psr = t.readMem (s.readReg 6 + 1) ∧
    u.readReg 6 = s.readReg 6 + 2 ∧ u.sspSaved = s.sspSaved - 2 ∧ RegsKept s u [6] ∧ FlagsKept s u

/-! ## Load and run to halt -/

/-- `load(stream)` (70_reset_and_hazards R222, decision D12): an empty stream and a payload past the address space are
errors that change nothing; else the payload stands at the origin and nothing else changes. -/
def Obligations.LoadCopiesThePayloadOrChangesNothing : Prop :=
  (∀ s, load [] s = (.err .malformedObject, s)) ∧
  (∀ (o : Word) payload s, 65536 < o.toNat + payload.length →
    load (o :: payload) s = (.err .memoryLoadOutOfBounds, s)) ∧
  (∀ (o : Word) payload s, o.toNat + payload.length ≤ 65536 → ∃ t, load (o :: payload) s = (.ok, t) ∧
    (∀ (k : Nat) (h : k < payload.length), t.readMem (wordOf (o.toNat + k)) = payload[k]) ∧
    (∀ a : Word, a.toNat < o.toNat ∨ o.toNat + payload.length ≤ a.toNat → t.readMem a = s.readMem a) ∧
    t.pc = s.pc ∧ RegsKept s t [] ∧ FlagsKept s t ∧ ControlKept s t)

/-- A later load overwrites an earlier one where they overlap, and leaves the rest of it (70_reset_and_hazards
R223). -/
def Obligations.LaterLoadsOverwriteEarlierOnes : Prop :=
  ∀ (o o' : Word) (ws ws' : List Word) (s t u : State),
    load (o :: ws) s = (.ok, t) → load (o' :: ws') t = (.ok, u) →
    (∀ (k : Nat) (h : k < ws'.length), u.readMem (wordOf (o'.toNat + k)) = ws'[k]) ∧
    (∀ (k : Nat) (h : k < ws.length), o.toNat + k < o'.toNat ∨ o'.toNat + ws'.length ≤ o.toNat + k →
      u.readMem (wordOf (o.toNat + k)) = ws[k])

/-- `run_to_halt(budget)` (70_reset_and_hazards R226, R227, decision D17), for every halt address and either order of
JSRR: it halts exactly at
the first state of the run at `HALT_PC`, exhausts the budget exactly when no state of that many steps is there, and
is unrecognized exactly where the run meets the reserved opcode first. -/
def Obligations.RunToHaltStopsAtTheFirstHaltState : Prop :=
  ∀ (order : LinkOrder) (haltPc : Word) (n : Nat) (s t : State),
    (runToHalt order haltPc n s = (.halted, t) ↔
      ∃ k, k ≤ n ∧ Steps order k s t ∧ EndsNormally haltPc t ∧ ∀ j u, j < k → Steps order j s u → ¬EndsNormally haltPc u) ∧
    (runToHalt order haltPc n s = (.budgetExhausted, t) ↔
      Steps order n s t ∧ ∀ j u, j ≤ n → Steps order j s u → ¬EndsNormally haltPc u) ∧
    (runToHalt order haltPc n s = (.unrecognized, t) ↔
      ∃ k, k < n ∧ Steps order k s t ∧ ¬Recognized t ∧ ∀ j u, j ≤ k → Steps order j s u → ¬EndsNormally haltPc u) ∧
    (runToHalt order haltPc n s).1 ≠ .invalid

/-- Without a budget (70_reset_and_hazards R226) a run that returns has one result, which is not an exhausted budget,
and every larger budget gives the same; a run that never gets to `HALT_PC` or to the reserved opcode does not
return. -/
def Obligations.RunWithoutBudgetReturnsOneResult : Prop :=
  ∀ (order : LinkOrder) (haltPc : Word) (s t : State) (o : RunOutcome),
    (RunReturns order haltPc none s o t → (o = .halted ∨ o = .unrecognized) ∧
      (∀ o' t', RunReturns order haltPc none s o' t' → o' = o ∧ t' = t) ∧
      ∃ n, ∀ m, n ≤ m → runToHalt order haltPc m s = (o, t)) ∧
    ((∀ n u, Steps order n s u → ¬EndsNormally haltPc u ∧ Recognized u) → ¬RunReturns order haltPc none s o t)

/-! ## The assembler engine -/

/-- The range checks (46_assembler R183, R184, decision D22): a signed field of width `n` accepts exactly the words whose
signed value is in range, which are those that the field sign-extends back to; the trap vector accepts exactly 0x0000
to 0x00FF, as it is. The others are an overflow with the width, the value and the bounds. -/
def Obligations.FieldsAcceptExactlyTheirRange : Prop :=
  (∀ n ∈ [5, 6, 9, 11], ∀ v : Word,
    (-(2 ^ (n - 1) : Int) ≤ v.toInt ∧ v.toInt ≤ 2 ^ (n - 1) - 1 →
      ∃ f : BitVec n, signedField n v = .ok f ∧ sext f = v ∧ f.toInt = v.toInt) ∧
    (¬(-(2 ^ (n - 1) : Int) ≤ v.toInt ∧ v.toInt ≤ 2 ^ (n - 1) - 1) →
      signedField n v = .error (.immediateOverflow n v.toInt (-(2 ^ (n - 1))) (2 ^ (n - 1) - 1)) ∧
      ∀ f : BitVec n, sext f ≠ v)) ∧
  (∀ v : Word,
    (v.toNat ≤ 255 → ∃ f : BitVec 8, vectorField v = .ok f ∧ f.toNat = v.toNat) ∧
    (255 < v.toNat → vectorField v = .error (.immediateOverflow 8 v.toInt 0 255)))

/-- 46_assembler R185: the encoder produces exactly these words, every bit the layout does not name being 0. -/
def Obligations.EncodedRecordsHaveTheseForms : Prop :=
  ∀ (tab : SymTab) (a : Word) (r r' r'' : RegIdx) (v : Word) (width : Nat) (raw : Bool),
    encodeRecord tab a .add [.reg r, .reg r', .reg r''] = .ok (wordOf (0x1000 + 512 * r.val + 64 * r'.val + r''.val)) ∧
    encodeRecord tab a .and [.reg r, .reg r', .reg r''] = .ok (wordOf (0x5000 + 512 * r.val + 64 * r'.val + r''.val)) ∧
    encodeRecord tab a .not [.reg r, .reg r'] = .ok (wordOf (0x9000 + 512 * r.val + 64 * r'.val)) ∧
    encodeRecord tab a .jmp [.reg r] = .ok (wordOf (0xC000 + 64 * r.val)) ∧
    encodeRecord tab a .jsr [.reg r] = .ok (wordOf (0x4000 + 64 * r.val)) ∧
    encodeRecord tab a .rti [] = .ok 0x8000 ∧
    (-16 ≤ v.toInt ∧ v.toInt ≤ 15 →
      encodeRecord tab a .add [.reg r, .reg r', .imm v width raw] =
        .ok (wordOf (0x1000 + 512 * r.val + 64 * r'.val + 32 + v.toNat % 32)) ∧
      encodeRecord tab a .and [.reg r, .reg r', .imm v width raw] =
        .ok (wordOf (0x5000 + 512 * r.val + 64 * r'.val + 32 + v.toNat % 32))) ∧
    (-32 ≤ v.toInt ∧ v.toInt ≤ 31 →
      encodeRecord tab a .ldr [.reg r, .reg r', .imm v width raw] =
        .ok (wordOf (0x6000 + 512 * r.val + 64 * r'.val + v.toNat % 64)) ∧
      encodeRecord tab a .str [.reg r, .reg r', .imm v width raw] =
        .ok (wordOf (0x7000 + 512 * r.val + 64 * r'.val + v.toNat % 64))) ∧
    (∀ (x : Operand) (d : Word), resolveOperand tab a x = .ok (.value d) →
      (-256 ≤ d.toInt ∧ d.toInt ≤ 255 →
        (∀ n z p : Bool, encodeRecord tab a (.br n z p) [x] =
          .ok (wordOf (2048 * n.toNat + 1024 * z.toNat + 512 * p.toNat + d.toNat % 512))) ∧
        encodeRecord tab a .ld [.reg r, x] = .ok (wordOf (0x2000 + 512 * r.val + d.toNat % 512)) ∧
        encodeRecord tab a .ldi [.reg r, x] = .ok (wordOf (0xA000 + 512 * r.val + d.toNat % 512)) ∧
        encodeRecord tab a .lea [.reg r, x] = .ok (wordOf (0xE000 + 512 * r.val + d.toNat % 512)) ∧
        encodeRecord tab a .st [.reg r, x] = .ok (wordOf (0x3000 + 512 * r.val + d.toNat % 512)) ∧
        encodeRecord tab a .sti [.reg r, x] = .ok (wordOf (0xB000 + 512 * r.val + d.toNat % 512))) ∧
      (-1024 ≤ d.toInt ∧ d.toInt ≤ 1023 →
        encodeRecord tab a .jsr [x] = .ok (wordOf (0x4800 + d.toNat % 2048)))) ∧
    (v.toNat ≤ 255 → encodeRecord tab a .trap [.imm v width raw] = .ok (wordOf (0xF000 + v.toNat)))

/-- The validation order within a record (46_assembler R180, decision D25): the count first, then the first operand of
a wrong kind, then an unresolved label, and only then a range. -/
def Obligations.RecordsAreValidatedInOrder : Prop :=
  ∀ (tab : SymTab) (a : Word) (op : OpId) (xs : List Operand),
    (xs.length ≠ (layout op).length →
      encodeRecord tab a op xs = .error (.operandCountMismatch (layout op).length xs.length)) ∧
    (∀ (k : Nat) (hx : k < xs.length) (hl : k < (layout op).length), xs.length = (layout op).length →
      operandKind xs[k] ∉ slotKinds (layout op)[k] →
      (∀ (j : Nat) (hj : j < k), operandKind xs[j] ∈ slotKinds (layout op)[j]) →
      encodeRecord tab a op xs = .error (.operandKindMismatch (k + 1) (slotKinds (layout op)[k]))) ∧
    (checkShape op xs = .ok () → ∀ l, Operand.label l ∈ xs → lookupLabel tab l = none →
      encodeRecord tab a op xs = .error (.unresolvedLabel l)) ∧
    (checkShape op xs = .ok () → (∀ l, Operand.label l ∈ xs → lookupLabel tab l ≠ none) →
      (∃ w, encodeRecord tab a op xs = .ok w) ∨
      ∃ n v lo hi, encodeRecord tab a op xs = .error (.immediateOverflow n v lo hi) ∧ (v < lo ∨ hi < v))

/-- Assembler and executor agree on labels (46_assembler R192): a label of a PC-relative slot, assembled at address `a`
without error, is the address the word reaches when a step fetches it from `a`. -/
def Obligations.AssembledLabelsReachTheirAddress : Prop :=
  ∀ (tab : SymTab) (a target w : Word) (l : LabelName) (r : RegIdx) (s : State),
    lookupLabel tab l = some target → s.pc = a → s.readMem a = w →
    (∀ n z p, encodeRecord tab a (.br n z p) [.label l] = .ok w →
      ∃ t, step s = .next t ∧ t.pc = if branchTaken n z p s.flags then target else a + 1) ∧
    (encodeRecord tab a .jsr [.label l] = .ok w → ∃ t, step s = .next t ∧ t.pc = target ∧ t.readReg 7 = a + 1) ∧
    (encodeRecord tab a .ld [.reg r, .label l] = .ok w →
      ∃ t, step s = .next t ∧ t.readReg r = s.readMem target ∧
        ∀ order, hostStep order s = (.applied (some target), t)) ∧
    (encodeRecord tab a .ldi [.reg r, .label l] = .ok w →
      ∃ t, step s = .next t ∧ t.readReg r = s.readMem (s.readMem target)) ∧
    (encodeRecord tab a .lea [.reg r, .label l] = .ok w → ∃ t, step s = .next t ∧ t.readReg r = target) ∧
    (encodeRecord tab a .st [.reg r, .label l] = .ok w →
      ∃ t, step s = .next t ∧ t.readMem target = s.readReg r ∧ MemKept s t [target]) ∧
    (encodeRecord tab a .sti [.reg r, .label l] = .ok w →
      ∃ t, step s = .next t ∧ t.readMem (s.readMem target) = s.readReg r ∧ MemKept s t [s.readMem target])

/-- Assembler and executor agree on immediates (46_assembler R174, R192): an immediate accepted in any field executes
with the value it was given; in a PC-relative slot that value is the offset from `a + 1`. -/
def Obligations.AssembledImmediatesExecuteAsGiven : Prop :=
  ∀ (tab : SymTab) (a w v : Word) (width : Nat) (raw : Bool) (r r' : RegIdx) (s : State),
    s.pc = a → s.readMem a = w →
    (encodeRecord tab a .add [.reg r, .reg r', .imm v width raw] = .ok w →
      ∃ t, step s = .next t ∧ t.readReg r = s.readReg r' + v) ∧
    (encodeRecord tab a .and [.reg r, .reg r', .imm v width raw] = .ok w →
      ∃ t, step s = .next t ∧ t.readReg r = s.readReg r' &&& v) ∧
    (encodeRecord tab a .ldr [.reg r, .reg r', .imm v width raw] = .ok w →
      ∃ t, step s = .next t ∧ t.readReg r = s.readMem (s.readReg r' + v)) ∧
    (encodeRecord tab a .str [.reg r, .reg r', .imm v width raw] = .ok w →
      ∃ t, step s = .next t ∧ t.readMem (s.readReg r' + v) = s.readReg r ∧ MemKept s t [s.readReg r' + v]) ∧
    (∀ n z p, encodeRecord tab a (.br n z p) [.imm v width raw] = .ok w →
      ∃ t, step s = .next t ∧ t.pc = if branchTaken n z p s.flags then a + 1 + v else a + 1) ∧
    (encodeRecord tab a .ld [.reg r, .imm v width raw] = .ok w →
      ∃ t, step s = .next t ∧ t.readReg r = s.readMem (a + 1 + v)) ∧
    (encodeRecord tab a .ldi [.reg r, .imm v width raw] = .ok w →
      ∃ t, step s = .next t ∧ t.readReg r = s.readMem (s.readMem (a + 1 + v))) ∧
    (encodeRecord tab a .lea [.reg r, .imm v width raw] = .ok w →
      ∃ t, step s = .next t ∧ t.readReg r = a + 1 + v) ∧
    (encodeRecord tab a .st [.reg r, .imm v width raw] = .ok w →
      ∃ t, step s = .next t ∧ t.readMem (a + 1 + v) = s.readReg r ∧ MemKept s t [a + 1 + v]) ∧
    (encodeRecord tab a .sti [.reg r, .imm v width raw] = .ok w →
      ∃ t, step s = .next t ∧ t.readMem (s.readMem (a + 1 + v)) = s.readReg r ∧
        MemKept s t [s.readMem (a + 1 + v)]) ∧
    (encodeRecord tab a .jsr [.imm v width raw] = .ok w →
      ∃ t, step s = .next t ∧ t.pc = a + 1 + v ∧ t.readReg 7 = a + 1) ∧
    (encodeRecord tab a .trap [.imm v width raw] = .ok w → ∃ t, step s = .next t ∧ t.pc = s.readMem v)

/-- Pass 1 (46_assembler R175, R176, decisions D19 and D20), with blank and comment records before the origin or none:
the k-th `Instr` record stands at `o + k`, and a label is bound, at its last definition, to the address of the next
word; a label on the origin record is bound to `o`. -/
def Obligations.PassOneGivesEveryWordAndLabelItsAddress : Prop :=
  ∀ (policy : DupLabelPolicy) (blanks : List Record) (r₀ : Record) (rest : List Record) (o o' : Word) (tab : SymTab)
    (placed : List Placed),
    (∀ r ∈ blanks, recordIsBlank r = true) → r₀.body = .origin o →
    pass1 policy (blanks ++ r₀ :: rest) = .ok (o', tab, placed) →
    o' = o ∧ placed.length = instrCount rest ∧
    (∀ (k : Nat) (h : k < placed.length), IsMod placed[k].addr ((o.toNat : Int) + k) ∧
      placed[k].record.body = .instr placed[k].op placed[k].operands) ∧
    placed.map Placed.record = rest.filter (fun r => decide (instrCount [r] = 1)) ∧
    (∀ (j : Nat) (h : j < rest.length) (l : LabelName), rest[j].label = some l →
      (∀ r ∈ rest.drop (j + 1), r.label ≠ some l) →
      ∃ a, lookupLabel tab l = some a ∧ IsMod a ((o.toNat : Int) + instrCount (rest.take j))) ∧
    (∀ l, r₀.label = some l → (∀ r ∈ rest, r.label ≠ some l) → lookupLabel tab l = some o)

/-- `bind(L, a, r)` (46_assembler R177) under either `DUP_LABEL_POLICY` (D24): a new label is added; a defined one is an
error at the record, or is replaced; no other binding changes. -/
def Obligations.BindingADefinedLabelFollowsThePolicy : Prop :=
  ∀ (policy : DupLabelPolicy) (r : Record) (l : LabelName) (a : Word) (tab : SymTab), r.label = some l →
    (policy = .error → lookupLabel tab l ≠ none →
      bindLabelOf policy r a tab = .error (asmErrorAt r (.duplicateLabel l))) ∧
    (policy = .lastWins ∨ lookupLabel tab l = none → ∃ tab', bindLabelOf policy r a tab = .ok tab' ∧
      lookupLabel tab' l = some a ∧ ∀ m, m ≠ l → lookupLabel tab' m = lookupLabel tab m)

/-- The origin directive (46_assembler R175, decision D19): blank records may come first; a first entry that is no
origin, or no entry at all, is `MissingOrigin`; a later origin is `DuplicateOrigin` at that record, under LAST_WINS
always, and under ERROR where no label stands on two of the records before it. Where one does, under ERROR, the first
record whose label an earlier one carries is met first, and the error is `DuplicateLabel` there (R176, R177). -/
def Obligations.OriginIsRequiredFirstAndOnce : Prop :=
  (∀ policy r rest, recordIsBlank r = true → assemble policy (r :: rest) = assemble policy rest) ∧
  (∀ policy r rest, recordIsBlank r = false → (∀ o, r.body ≠ .origin o) →
    assemble policy (r :: rest) = .error (asmErrorAt r .missingOrigin)) ∧
  (∀ policy, ∃ e, assemble policy [] = .error e ∧ e.kind = .missingOrigin ∧ e.line = 1 ∧ e.text = "") ∧
  (∀ policy r₀ (o o' : Word) mid r rest, r₀.body = .origin o → (∀ q ∈ mid, ∀ x, q.body ≠ .origin x) →
    r.body = .origin o' →
    (policy = .lastWins ∨ ((r₀ :: mid).filterMap Record.label).Nodup →
      assemble policy (r₀ :: mid ++ r :: rest) = .error (asmErrorAt r .duplicateOrigin)) ∧
    (∀ before q after l, policy = .error → r₀ :: mid = before ++ q :: after → q.label = some l →
      l ∈ before.filterMap Record.label → (before.filterMap Record.label).Nodup →
      assemble policy (r₀ :: mid ++ r :: rest) = .error (asmErrorAt q (.duplicateLabel l))))

/-- Pass 1 runs to completion before pass 2 begins (46_assembler R178, R190): its error is the assembler's, and the
first record of pass 2 that does not encode aborts the rest. -/
def Obligations.FirstErrorOfTheFirstPassWins : Prop :=
  (∀ policy rs e, pass1 policy rs = .error e → assemble policy rs = .error e) ∧
  (∀ policy rs o tab before (q : Placed) after kind, pass1 policy rs = .ok (o, tab, before ++ q :: after) →
    (∀ b ∈ before, ∃ w, encodeRecord tab b.addr b.op b.operands = .ok w) →
    encodeRecord tab q.addr q.op q.operands = .error kind →
    assemble policy rs = .error (asmErrorAt q.record kind))

/-- Every error carries the line and the text of a record of the list, but for a list with no entry, whose error
carries line 1 and the empty text (46_assembler R175, R188). -/
def Obligations.ErrorsCarryTheLineAndTextOfARecord : Prop :=
  ∀ policy rs e, assemble policy rs = .error e →
    (∃ r ∈ rs, e.line = r.line ∧ e.text = r.text) ∨
    (e.kind = .missingOrigin ∧ e.line = 1 ∧ e.text = "" ∧ ∀ r ∈ rs, recordIsBlank r = true)

/-- From records to memory (46_assembler R186, 70_reset_and_hazards R222): an assembled stream is the origin and one
word per `Instr` record, and once it is loaded each record's word stands at the record's address and decodes to an
instruction of the record's operation. -/
def Obligations.AssembledProgramStandsInMemoryAsItsInstructions : Prop :=
  ∀ (policy : DupLabelPolicy) (rs : List Record) (stream : List Word) (s t : State),
    assemble policy rs = .ok stream → load stream s = (.ok, t) →
    ∃ o tab placed, pass1 policy rs = .ok (o, tab, placed) ∧ stream.head? = some o ∧
      stream.length = 1 + instrCount rs ∧ placed.length = instrCount rs ∧
      ∀ (k : Nat) (h : k < placed.length),
        placed[k].addr = wordOf (o.toNat + k) ∧
        encodeRecord tab placed[k].addr placed[k].op placed[k].operands = .ok (t.readMem placed[k].addr) ∧
        (decode (t.readMem placed[k].addr)).operation = some (operationOf placed[k].op)
end

