-- ==== Sys2Proof/Tests/Slice0.lean ====
section
/-! SUPPORT. Tests with expected results from the spec (95_test_vectors.md, by the vector's id), and for every
statement with hypotheses a witness that meets them. -/

namespace Sys2Proof.Tests

open Sys2Proof Sys2Proof.Machine Sys2Proof.Safety

/-! ## Helpers -/

def flagN : Flags := ⟨true, false, false⟩
def flagZ : Flags := ⟨false, true, false⟩
def flagP : Flags := ⟨false, false, true⟩

/-- The start state of a vector: pc, the word there, the flags, some registers and some memory words. -/
def start (pc w : Word) (f : Flags) (regs : List (RegIdx × Word)) (mem : List (Word × Word)) : State :=
  let s := ((State.reset.setPc pc).writeMem pc w).setFlags f
  let s := regs.foldl (fun (u : State) (e : RegIdx × Word) => u.writeReg e.1 e.2) s
  mem.foldl (fun (u : State) (e : Word × Word) => u.writeMem e.1 e.2) s

/-! ## Well-formedness: an ill-formed term for each check -/

/-- 30_encoding R63: UNKNOWN is no operation. -/
theorem test_wellFormed_refuses_unknown : Instr.unknown.wellFormed = false := by decide

/-- 46_assembler R171: a record's line is a positive integer. -/
theorem test_wellFormed_refuses_line_zero : Record.wellFormed ⟨0, "", none, .noWord⟩ = false := by decide

theorem test_wellFormed_accepts : (Instr.rti).wellFormed = true ∧ Record.wellFormed ⟨1, "", none, .noWord⟩ = true := by
  decide

/-! ## Decoding and encoding: words written out from the formats of 30_encoding R67 -/

/-- Every constructor's decoding, on a word of 95_test_vectors whose ignored bits are 0. -/
theorem test_decode_every_constructor :
    decode 0b0000_001_000000001 = .br false false true 1 ∧ decode 0b0001_011_001_0_00_010 = .addReg 3 1 2 ∧
    decode 0b0001_011_001_1_10000 = .addImm 3 1 0b10000 ∧ decode 0b0010_001_000000110 = .ld 1 6 ∧
    decode 0b0011_010_000000100 = .st 2 4 ∧ decode 0b0100_0_00_100_000000 = .jsrr 4 ∧
    decode 0b0100_1_10000000000 = .jsr 0b10000000000 ∧ decode 0b0101_011_001_0_00_010 = .andReg 3 1 2 ∧
    decode 0b0101_011_001_1_11111 = .andImm 3 1 0b11111 ∧ decode 0b0110_011_100_111111 = .ldr 3 4 0b111111 ∧
    decode 0b0111_000_110_000000 = .str 0 6 0 ∧ decode 0b1000_000000000000 = .rti ∧
    decode 0b1001_011_100_000000 = .not 3 4 ∧ decode 0b1010_010_000000001 = .ldi 2 1 ∧
    decode 0b1011_001_000000010 = .sti 1 2 ∧ decode 0b1100_000_111_000000 = .jmp 7 ∧
    decode 0b1101_000100100011 = .unknown ∧ decode 0b1110_000_111111110 = .lea 0 0b111111110 ∧
    decode 0b1111_0000_00100101 = .trap 0x25 := by decide

/-- The encoder gives those words back; UNKNOWN has none (30_encoding R63). -/
theorem test_encode_every_constructor :
    encode (.br false false true 1) = some 0x0201 ∧ encode (.addReg 3 1 2) = some 0x1642 ∧
    encode (.addImm 3 1 0b10000) = some 0x1670 ∧ encode (.ld 1 6) = some 0x2206 ∧ encode (.st 2 4) = some 0x3404 ∧
    encode (.jsrr 4) = some 0x4100 ∧ encode (.jsr 0b10000000000) = some 0x4C00 ∧
    encode (.andReg 3 1 2) = some 0x5642 ∧ encode (.andImm 3 1 0b11111) = some 0x567F ∧
    encode (.ldr 3 4 0b111111) = some 0x673F ∧ encode (.str 0 6 0) = some 0x7180 ∧ encode .rti = some 0x8000 ∧
    encode (.not 3 4) = some 0x9700 ∧ encode (.ldi 2 1) = some 0xA401 ∧ encode (.sti 1 2) = some 0xB202 ∧
    encode (.jmp 7) = some 0xC1C0 ∧ encode .unknown = none ∧ encode (.lea 0 0b111111110) = some 0xE1FE ∧
    encode (.trap 0x25) = some 0xF025 := by decide

/-- Ignored bits set (vectors O9, O17, J2, J12, T2, T6). -/
theorem test_decode_ignored_bits :
    decode 0x165A = .addReg 3 1 2 ∧ decode 0x973F = .not 3 4 ∧ decode 0xC4FF = .jmp 3 ∧ decode 0x46FF = .jsrr 3 ∧
    decode 0xFFFF = .trap 0xFF ∧ decode 0x8FFF = .rti := by decide

/-- The host's question on one row; an instruction longer than one word is none. -/
theorem test_decodeTableWord :
    decodeTableWord 16 0x14BB = some (.addImm 2 2 0b11011) ∧ decodeTableWord 32 0x14BB = none := by decide

/-- The word stored where the step fetches runs as the first instruction after reset: AND R0,R0,#0. -/
theorem test_withFetchWord :
    let s := State.reset.withFetchWord 16 0x5020
    hostStep .linkFirst s = (.applied none, (s.setFlags flagZ).setPc 0x3001) := by decide

/-- Boundary values of the four signed widths (95 L1.5). -/
theorem test_sext_boundaries :
    sext (0x0F#5) = 0x000F ∧ sext (0x10#5) = 0xFFF0 ∧ sext (0x1F#6) = 0x001F ∧ sext (0x20#6) = 0xFFE0 ∧
    sext (0xFF#9) = 0x00FF ∧ sext (0x100#9) = 0xFF00 ∧ sext (0x3FF#11) = 0x03FF ∧ sext (0x400#11) = 0xFC00 := by decide

/-- `setcc` on the values of 95 L1.4. -/
theorem test_setcc : setcc 0x0000 = flagZ ∧ setcc 0x0001 = flagP ∧ setcc 0x7FFF = flagP ∧ setcc 0x8000 = flagN ∧
    setcc 0x8001 = flagN ∧ setcc 0xFFFF = flagN := by decide

/-! ## One step of each instruction -/

theorem test_O1_add_wraps_to_negative :
    let s := start 0x3000 0x1642 flagZ [(1, 0x7FFF), (2, 0x0001)] []
    hostStep .linkFirst s = (.applied none, ((s.writeReg 3 0x8000).setFlags flagN).setPc 0x3001) := by decide

theorem test_O2_add_loses_the_carry :
    let s := start 0x3000 0x1642 flagP [(1, 0xFFFF), (2, 0x0001)] []
    hostStep .linkFirst s = (.applied none, ((s.writeReg 3 0x0000).setFlags flagZ).setPc 0x3001) := by decide

theorem test_O5_add_smallest_imm5 :
    let s := start 0x3000 0x1670 flagN [(1, 0x0010)] []
    hostStep .linkFirst s = (.applied none, ((s.writeReg 3 0x0000).setFlags flagZ).setPc 0x3001) := by decide

theorem test_O18_add_imm_same_register :
    let s := start 0x3000 0x103F flagZ [] []
    hostStep .linkFirst s = (.applied none, ((s.writeReg 0 0xFFFF).setFlags flagN).setPc 0x3001) := by decide

theorem test_O13_and_register :
    let s := start 0x3000 0x5642 flagZ [(1, 0xF0F0), (2, 0x8F0F)] []
    hostStep .linkFirst s = (.applied none, ((s.writeReg 3 0x8000).setFlags flagN).setPc 0x3001) := by decide

theorem test_O11_and_imm_sign_extends :
    let s := start 0x3000 0x5670 flagZ [(1, 0xABCD)] []
    hostStep .linkFirst s = (.applied none, ((s.writeReg 3 0xABC0).setFlags flagN).setPc 0x3001) := by decide

theorem test_O16_not :
    let s := start 0x3000 0x9700 flagZ [(4, 0x8000)] []
    hostStep .linkFirst s = (.applied none, ((s.writeReg 3 0x7FFF).setFlags flagP).setPc 0x3001) := by decide

theorem test_O19_not_same_register :
    let s := start 0x3000 0x9480 flagZ [(2, 0x5555)] []
    hostStep .linkFirst s = (.applied none, ((s.writeReg 2 0xAAAA).setFlags flagN).setPc 0x3001) := by decide

theorem test_B6_branch_smallest_offset :
    let s := start 0x3000 0x0F00 flagN [] []
    hostStep .linkFirst s = (.applied none, s.setPc 0x2F01) := by decide

theorem test_B4_branch_with_no_flag_set :
    let s := start 0x3000 0x0E05 ⟨false, false, false⟩ [] []
    hostStep .linkFirst s = (.applied none, s.setPc 0x3001) := by decide

theorem test_J1_ret :
    let s := start 0x3000 0xC1C0 flagZ [(7, 0x3456)] []
    hostStep .linkFirst s = (.applied none, s.setPc 0x3456) := by decide

theorem test_J2_jump_ignored_bits :
    let s := start 0x3000 0xC4FF flagZ [(3, 0x4000)] []
    hostStep .linkFirst s = (.applied none, s.setPc 0x4000) := by decide

theorem test_J5_jsr_smallest_offset :
    let s := start 0x3000 0x4C00 flagZ [] []
    hostStep .linkFirst s = (.applied none, (s.writeReg 7 0x3001).setPc 0x2C01) := by decide

theorem test_J11_jsr_wraps :
    let s := start 0xFFFF 0x4801 flagZ [(7, 0x1111)] []
    hostStep .linkFirst s = (.applied none, (s.writeReg 7 0x0000).setPc 0x0001) := by decide

theorem test_J8_jsrr :
    let s := start 0x3000 0x4100 flagZ [(4, 0x5000)] []
    hostStep .linkFirst s = (.applied none, (s.writeReg 7 0x3001).setPc 0x5000) := by decide

/-- Both orders (J9, J10); `step` takes the spec's default, LINK_FIRST (log 8). -/
theorem test_J9_J10_jsrr_through_R7 :
    let s := start 0x3000 0x41C0 flagZ [(7, 0x5000)] []
    hostStep .linkFirst s = (.applied none, (s.writeReg 7 0x3001).setPc 0x3001) ∧
    hostStep .targetFirst s = (.applied none, (s.writeReg 7 0x3001).setPc 0x5000) ∧
    step s = .next ((s.writeReg 7 0x3001).setPc 0x3001) := ⟨by decide, by decide, rfl⟩

theorem test_L2_ld_reads_its_own_word :
    let s := start 0x3000 0x23FF flagZ [] []
    hostStep .linkFirst s = (.applied (some 0x3000), ((s.writeReg 1 0x23FF).setFlags flagP).setPc 0x3001) := by decide

theorem test_L12_ld_smallest_offset :
    let s := start 0x3000 0x2300 flagZ [] [(0x2F01, 0x8000)]
    hostStep .linkFirst s = (.applied (some 0x2F01), ((s.writeReg 1 0x8000).setFlags flagN).setPc 0x3001) := by decide

theorem test_L3_ldi_reports_the_final_address :
    let s := start 0x3000 0xA401 flagZ [] [(0x3002, 0x4000), (0x4000, 0xFFFF)]
    hostStep .linkFirst s = (.applied (some 0x4000), ((s.writeReg 2 0xFFFF).setFlags flagN).setPc 0x3001) := by decide

theorem test_L4_ldi_pointer_to_itself :
    let s := start 0x3000 0xA401 flagZ [] [(0x3002, 0x3002)]
    hostStep .linkFirst s = (.applied (some 0x3002), ((s.writeReg 2 0x3002).setFlags flagP).setPc 0x3001) := by decide

theorem test_L6_ldr_same_register :
    let s := start 0x3000 0x6480 flagZ [(2, 0x5000)] [(0x5000, 0x8000)]
    hostStep .linkFirst s = (.applied (some 0x5000), ((s.writeReg 2 0x8000).setFlags flagN).setPc 0x3001) := by decide

theorem test_L7_ldr_address_wraps :
    let s := start 0x3000 0x667F flagZ [] [(0xFFFF, 0x0042)]
    hostStep .linkFirst s = (.applied (some 0xFFFF), ((s.writeReg 3 0x0042).setFlags flagP).setPc 0x3001) := by decide

theorem test_L10_lea_sets_the_flags :
    let s := start 0x7F00 0xEAFF flagZ [] []
    hostStep .linkFirst s = (.applied none, ((s.writeReg 5 0x8000).setFlags flagN).setPc 0x7F01) := by decide

theorem test_L11_lea_wraps :
    let s := start 0xFFFF 0xE200 flagP [(1, 0x1234)] []
    hostStep .linkFirst s = (.applied none, ((s.writeReg 1 0x0000).setFlags flagZ).setPc 0x0000) := by decide

theorem test_S1_st :
    let s := start 0x3005 0x3404 flagZ [(2, 0x000F)] []
    hostStep .linkFirst s = (.applied none, (s.writeMem 0x300A 0x000F).setPc 0x3006) := by decide

theorem test_S7_st_overwrites_its_own_word :
    let s := start 0x3000 0x3FFF flagZ [(7, 0x1234)] []
    hostStep .linkFirst s = (.applied none, (s.writeMem 0x3000 0x1234).setPc 0x3001) := by decide

theorem test_S2_sti :
    let s := start 0x3000 0xB202 flagZ [(1, 0xABCD)] [(0x3003, 0x5000)]
    hostStep .linkFirst s = (.applied none, (s.writeMem 0x5000 0xABCD).setPc 0x3001) := by decide

theorem test_S3_sti_pointer_to_itself :
    let s := start 0x3000 0xB202 flagZ [(1, 0x1111)] [(0x3003, 0x3003)]
    hostStep .linkFirst s = (.applied none, (s.writeMem 0x3003 0x1111).setPc 0x3001) := by decide

theorem test_S5_str_address_wraps :
    let s := start 0x3000 0x7241 flagZ [(1, 0xFFFF)] []
    hostStep .linkFirst s = (.applied none, (s.writeMem 0x0000 0xFFFF).setPc 0x3001) := by decide

theorem test_S6_str_smallest_offset :
    let s := start 0x3000 0x7260 flagZ [(1, 0x4020)] []
    hostStep .linkFirst s = (.applied none, (s.writeMem 0x4000 0x4020).setPc 0x3001) := by decide

theorem test_T1_trap :
    let s := start 0x3006 0xF025 flagZ [] [(0x0025, 0x4000)]
    hostStep .linkFirst s = (.applied none, (s.writeReg 7 0x3007).setPc 0x4000) := by decide

theorem test_T2_trap_zero_extends :
    let s := start 0x3000 0xFFFF flagZ [] [(0x00FF, 0x1234)]
    hostStep .linkFirst s = (.applied none, (s.writeReg 7 0x3001).setPc 0x1234) := by decide

theorem test_T4_rti :
    let s := start 0x3000 0x8000 flagZ [(6, 0x2FFE)] [(0x2FFE, 0x3010), (0x2FFF, 0x8002)]
    hostStep .linkFirst s = (.applied none, ((s.writeReg 6 0x3000).setPsr 0x8002).setPc 0x3010) := by decide

theorem test_T5_rti_stack_wraps :
    let s := start 0x3000 0x8000 flagZ [(6, 0xFFFF)] [(0x0000, 0x0004), (0xFFFF, 0x3000)]
    hostStep .linkFirst s = (.applied none, ((s.writeReg 6 0x0001).setPsr 0x0004).setPc 0x3000) := by decide

theorem test_U1_reserved_opcode :
    let s := start 0x3000 0xD123 flagP [(1, 0x0005)] []
    hostStep .linkFirst s = (.unrecognized, s) ∧ step s = .fault (.unrecognized 0x3000 0xD123) := ⟨by decide, rfl⟩

theorem test_U2_reserved_opcode_at_the_top :
    let s := start 0xFFFF 0xD000 flagZ [] []
    hostStep .linkFirst s = (.unrecognized, s) := by decide

/-! ## Host operations -/

theorem test_I1_interrupt :
    let s := ((start 0x3005 0x0000 flagZ [(6, 0x3000)] [(0x0180, 0x1000)]).setPsr 0x0002).setSspSaved 0x2000
    interrupt 0x0180 s =
      ((((s.writeReg 6 0x1FFE).setSspSaved 0x3000).writeMem 0x1FFE 0x3005).writeMem 0x1FFF 0x0002).setPc 0x1000 := by
  decide

theorem test_I2_interrupt_stack_wraps :
    let s := ((start 0x3005 0x0000 flagZ [(6, 0x3000)] [(0x0180, 0x1000)]).setPsr 0x0002).setSspSaved 0x0001
    interrupt 0x0180 s =
      ((((s.writeReg 6 0xFFFF).setSspSaved 0x3000).writeMem 0xFFFF 0x3005).writeMem 0x0000 0x0002).setPc 0x1000 := by
  decide

/-- The vector word is read after the pushes. -/
theorem test_I3_interrupt_reads_the_vector_last :
    let s := ((start 0x3005 0x0000 flagZ [(6, 0x3000)] []).setPsr 0x0002).setSspSaved 0x2000
    (interrupt 0x1FFE s).pc = 0x3005 := by decide

theorem test_I5_interrupt_and_return :
    let s := (start 0x3005 0x0000 flagZ [(6, 0x3000)] [(0x0180, 0x4000), (0x4000, 0x8000)]).setSspSaved 0x2000
    let t := (hostStep .linkFirst (interrupt 0x0180 s)).2
    t.pc = 0x3005 ∧ t.readReg 6 = 0x2000 ∧ t.sspSaved = 0x3000 := by decide

theorem test_H1_H2_load_at_the_top :
    load [0xFFFF, 0x0001] State.reset = (.ok, State.reset.writeMem 0xFFFF 0x0001) ∧
    load [0xFFFF, 0x0001, 0x0002] State.reset = (.err .memoryLoadOutOfBounds, State.reset) := by decide

theorem test_H3_H4_H5_load :
    load [] State.reset = (.err .malformedObject, State.reset) ∧ load [0x3000] State.reset = (.ok, State.reset) ∧
    load [0x4000, 0x1021] State.reset = (.ok, State.reset.writeMem 0x4000 0x1021) := by decide

/-- H8, H11, and H12 with a budget of 2. -/
theorem test_H8_H11_H12_run_to_halt :
    let s := State.reset.setFlags flagZ
    runToHalt .linkFirst 0x3000 5 (load [0x3000, 0x1021] s).2 = (.halted, (load [0x3000, 0x1021] s).2) ∧
    (runToHalt .linkFirst 0xFFFF 5 (load [0x3000, 0x1021, 0xD123, 0x1021] s).2).1 = .unrecognized ∧
    (runToHalt .linkFirst 0xFFFF 5 (load [0x3000, 0x1021, 0xD123, 0x1021] s).2).2.pc = 0x3001 ∧
    (runToHalt .linkFirst 0xFFFF 2 (load [0x3000, 0x0FFF] s).2).1 = .budgetExhausted := by decide

theorem test_opcode_table_directions :
    opcodeDecode 0x14BB = some .add ∧ opcodeDecode 0xDFFF = none ∧ opcodeEncode (some .trap) = some 0xF000 ∧
    opcodeEncode none = none := by decide

/-! ## The assembler engine -/

/-- A record of a vector: its text is never compared. -/
def record (line : Nat) (label : Option LabelName) (body : Body) : Record := ⟨line, "", label, body⟩

def anImm (v : Word) : Operand := .imm v 5 false

/-- An answer of the assembler without the cause's text, which is not specified. -/
def answer (r : Except AsmError (List Word)) : List Word × Option (AsmErrorKind × Nat) :=
  match r with
  | .ok ws => (ws, none)
  | .error e => ([], some (e.kind, e.line))

/-- 46_assembler R195: scenario 1 of the source. -/
theorem test_R195_scenario_1 :
    answer (assemble .error [⟨1, "origin=0x3000", none, .origin 0x3000⟩,
      ⟨2, "ADD R2,R2,#-5", none, .instr .add [.reg 2, .reg 2, .imm 0xFFFB 5 false]⟩,
      ⟨3, "ADD R2,R2,R2", none, .instr .add [.reg 2, .reg 2, .reg 2]⟩]) = ([0x3000, 0x14BB, 0x1482], none) := by decide

/-- A1 to A5: the bounds of a 5-bit immediate. -/
theorem test_A1_to_A5_imm5_bounds :
    let one (op : OpId) (v : Word) := answer (assemble .error
      [record 1 none (.origin 0x3000), record 2 none (.instr op [.reg 1, .reg 1, anImm v])])
    one .add 0xFFF0 = ([0x3000, 0x1270], none) ∧ one .add 0x000F = ([0x3000, 0x126F], none) ∧
    one .add 0xFFEF = ([], some (.immediateOverflow 5 (-17) (-16) 15, 2)) ∧
    one .add 0x0010 = ([], some (.immediateOverflow 5 16 (-16) 15, 2)) ∧
    one .and 0xFFFB = ([0x3000, 0x527B], none) := by decide

/-- A6 to A9: the origin directive. -/
theorem test_A6_to_A9_origin :
    answer (assemble .error [record 1 none .noWord, record 2 none (.instr .add [.reg 1, .reg 1, .reg 1])]) =
      ([], some (.missingOrigin, 2)) ∧
    answer (assemble .error []) = ([], some (.missingOrigin, 1)) ∧
    answer (assemble .error [record 1 none .noWord, record 2 none .noWord, record 3 none (.origin 0x3000),
      record 4 none (.instr .rti [])]) = ([0x3000, 0x8000], none) ∧
    answer (assemble .error [record 1 none (.origin 0x3000), record 2 none (.instr .rti []),
      record 3 none (.origin 0x4000)]) = ([], some (.duplicateOrigin, 3)) := by decide

/-- A10 and A11: a label defined twice, under both policies. The vector's list for A11 has one 0x8000; R186 gives one
word per record, so two (log 24). -/
theorem test_A10_A11_duplicate_label :
    let rs := [record 1 none (.origin 0x3000), record 2 (some "X") (.instr .rti []),
      record 3 (some "X") (.instr .rti []), record 4 none (.instr (.br true true true) [.label "X"])]
    answer (assemble .error rs) = ([], some (.duplicateLabel "X", 3)) ∧
    answer (assemble .lastWins rs) = ([0x3000, 0x8000, 0x8000, 0x0FFE], none) := by decide

/-- A12 to A15: count, kind and label errors. -/
theorem test_A12_to_A15_errors :
    let one (label : Option LabelName) (op : OpId) (xs : List Operand) := answer (assemble .error
      [record 1 none (.origin 0x3000), record 2 label (.instr op xs)])
    one none .add [.reg 1, .reg 1] = ([], some (.operandCountMismatch 3 2, 2)) ∧
    one (some "X") .ldr [.reg 1, .reg 2, .label "X"] = ([], some (.operandKindMismatch 3 [.imm], 2)) ∧
    one none .not [.reg 1, anImm 1] = ([], some (.operandKindMismatch 2 [.reg], 2)) ∧
    one none (.br true true true) [.label "NOPE"] = ([], some (.unresolvedLabel "NOPE", 2)) := by decide

/-- A16, A17, A24, A25: forward references, label-only records, the two forms of JSR, wrapping addresses. -/
theorem test_A16_A17_A24_A25_labels :
    answer (assemble .error [record 1 none (.origin 0x3000), record 2 none (.instr .ld [.reg 0, .label "D"]),
      record 3 none (.instr .add [.reg 0, .reg 0, anImm 1]), record 4 (some "D") .noWord]) =
      ([0x3000, 0x2001, 0x1021], none) ∧
    answer (assemble .error [record 1 none (.origin 0x3000), record 2 none (.instr .rti []),
      record 3 (some "L1") .noWord, record 4 none .noWord, record 5 none (.instr .jmp [.reg 7]),
      record 6 none (.instr .lea [.reg 1, .label "L1"])]) = ([0x3000, 0x8000, 0xC1C0, 0xE3FE], none) ∧
    answer (assemble .error [record 1 none (.origin 0x3000), record 2 none (.instr .jsr [.label "S"]),
      record 3 none (.instr .jsr [.reg 3]), record 4 (some "S") (.instr .jmp [.reg 7])]) =
      ([0x3000, 0x4801, 0x40C0, 0xC1C0], none) ∧
    answer (assemble .error [record 1 none (.origin 0xFFFE), record 2 none (.instr .rti []),
      record 3 none (.instr (.br true true true) [.label "W"]), record 4 (some "W") .noWord]) =
      ([0xFFFE, 0x8000, 0x0E00], none) := by decide

/-- A21 to A23, A26 and A27: the trap vector and the 6-bit offset. -/
theorem test_A21_to_A27_bounds :
    let one (op : OpId) (xs : List Operand) := answer (assemble .error
      [record 1 none (.origin 0x3000), record 2 none (.instr op xs)])
    one .trap [anImm 0x00FF] = ([0x3000, 0xF0FF], none) ∧
    one .trap [anImm 0x0100] = ([], some (.immediateOverflow 8 256 0 255, 2)) ∧
    one .trap [anImm 0xFFFF] = ([], some (.immediateOverflow 8 (-1) 0 255, 2)) ∧
    one .str [.reg 1, .reg 2, anImm 0xFFE0] = ([0x3000, 0x72A0], none) ∧
    one .str [.reg 1, .reg 2, anImm 0x0020] = ([], some (.immediateOverflow 6 32 (-32) 31, 2)) := by decide

/-! ## Witnesses: states and operands that meet the hypotheses of the statements -/

/-- Some registers, a flag, the swap stack pointer and a stack in memory. -/
def sample : State :=
  ((start 0x3000 0x1021 flagP [(0, 0x0005), (6, 0x5000), (7, 0x1111)] [(0x5000, 0x3010)]).setPsr 0x0002).setSspSaved
    0x2000

theorem witness_EncodeOfDecodeClearsIgnoredBits :
    (0xCFFF : Word).toNat / 4096 ≠ 13 ∧ (0xE000 : Word).toNat / 4096 ≠ 13 := by decide

theorem witness_IgnoredBitsDoNotMatter :
    (0x165A : Word) &&& 0xF020 = 0x1000 ∧ (0x5642 : Word) &&& 0xF020 = 0x5000 ∧ (0x973F : Word) &&& 0xF000 = 0x9000 ∧
    (0xC4FF : Word) &&& 0xF000 = 0xC000 ∧ (0x46FF : Word) &&& 0xF800 = 0x4000 ∧ (0xFFFF : Word) &&& 0xF000 = 0xF000 ∧
    (0x8FFF : Word) &&& 0xF000 = 0x8000 ∧ encode (.addReg 7 7 7) = some 0x1FC7 ∧
    encode (.andReg 7 7 7) = some 0x5FC7 ∧ encode (.not 7 7) = some 0x9FC0 ∧ encode (.jmp 7) = some 0xC1C0 ∧
    encode (.jsrr 7) = some 0x41C0 ∧ encode (.trap 0xFF) = some 0xF0FF := by decide

theorem witness_ExactlyOneOpcodeRowMatchesEachWord :
    ("JSRR", (0xF800 : Word), (0x4000 : Word)) ∈ opcodeRows ∧
    rowMatches 0x47FF ("JSRR", 0xF800, 0x4000) = true ∧ rowMatches 0x4800 ("JSR", 0xF800, 0x4800) = true := by decide

theorem witness_DecodeOfEncodeIsTheInstruction :
    (Instr.trap 0xFF).wellFormed = true ∧ Instr.unknown.wellFormed = false := by decide

theorem witness_OpcodeTableIsABijection :
    (Operation.trap, 15) ∈ [(Operation.br, 0), (.add, 1), (.ld, 2), (.st, 3), (.jsr, 4), (.and, 5), (.ldr, 6),
      (.str, 7), (.rti, 8), (.not, 9), (.ldi, 10), (.sti, 11), (.jmp, 12), (.lea, 14), (.trap, 15)] ∧
    opcodeDecode 0xDFFF = none ∧ 0x0FFF ≤ 0x0FFF := by decide

theorem witness_SignExtensionReplicatesTheSignBit :
    0 < 1 ∧ 16 ≤ 16 ∧ (0x0010 : Word).getLsbD (5 - 1) = true ∧ (0x000F : Word).getLsbD (5 - 1) = false ∧
    (0x8000 : Word).getLsbD (16 - 1) = true ∧ (0x0000 : Word).getLsbD (1 - 1) = false := by decide

theorem witness_SetccFollowsTheSignedResult :
    (0x8000 : Word) ≠ 0x0000 ∧ (0x8000 : Word).getLsbD 15 = true ∧ (0x7FFF : Word) ≠ 0x0000 ∧
    (0x7FFF : Word).getLsbD 15 = false ∧
    (exec (.addImm 0 0 1) sample = .next (sample.writeResult 0 0x0006) ∧ setccDest (.addImm 0 0 1) = some 0) ∧
    (exec (.jmp 7) sample = .next (sample.setPc 0x1111) ∧ setccDest (.jmp 7) = none) :=
  ⟨by decide, by decide, by decide, by decide, ⟨rfl, rfl⟩, rfl, rfl⟩

theorem witness_OnlyBranchesReadTheFlags :
    (exec .rti sample = .next sample.returnFromInterrupt ∧ ∀ n z p off, Instr.rti ≠ .br n z p off) ∧
    (exec (.br true true true 1) sample = .next (sample.setPc 0x3002) ∧
      branchTaken true true true flagN = branchTaken true true true sample.flags) :=
  ⟨⟨rfl, by intros; simp⟩, rfl, rfl⟩

/-- A branch taken and one not taken. -/
theorem witness_BranchGoesWhenAMaskedFlagIsSet :
    (true = true ∧ sample.flags.p = true) ∧
    ¬((true = true ∧ sample.flags.n = true) ∨ (true = true ∧ sample.flags.z = true) ∨
      (false = true ∧ sample.flags.p = true)) := by decide

theorem witness_CallSavesTheReturnAddress :
    (6 : RegIdx) ≠ 7 ∧ (0 : RegIdx) ≠ 7 ∧ ∀ baseR, Instr.jsr 5 ≠ .jsrr baseR := ⟨by decide, by decide, by simp⟩

/-- A store to the next word, by each of the three. -/
theorem witness_StoredWordIsFetchedNext :
    (exec (.st 0 0) sample = .next (sample.storeWord 0x3001 0x0005) ∧
      (sample.storeWord 0x3001 0x0005).pc = sample.pcRelative (0 : BitVec 9)) ∧
    (let s := sample.writeMem 0x3002 0x3001
     exec (.sti 0 1) s = .next (s.storeWord 0x3001 0x0005) ∧
      (s.storeWord 0x3001 0x0005).pc = s.readMem (s.pcRelative (1 : BitVec 9))) ∧
    (let s := sample.writeReg 1 0x3001
     exec (.str 0 1 0) s = .next (s.storeWord 0x3001 0x0005) ∧
      (s.storeWord 0x3001 0x0005).pc = s.baseOffset 1 0) :=
  ⟨⟨rfl, rfl⟩, ⟨rfl, rfl⟩, rfl, rfl⟩

theorem witness_ReservedOpcodeIsUnrecognizedAndChangesNothing :
    ((start 0x3000 0xD000 flagZ [] []).readMem 0x3000).toNat / 4096 = 13 ∧
    ((start 0x3000 0xDFFF flagZ [] []).readMem 0x3000).toNat / 4096 = 13 := by decide

theorem witness_StepRunsTheDecodedInstruction :
    decode (sample.readMem sample.pc) = .addImm 0 0 1 ∧ (Instr.addImm 0 0 1).wellFormed = true := by decide

theorem witness_StepStopsExactlyOnTheReservedOpcode :
    ((start 0x3000 0xCFFF flagZ [] []).readMem 0x3000).toNat / 4096 ≠ 13 ∧
    ((start 0x3000 0xE000 flagZ [] []).readMem 0x3000).toNat / 4096 ≠ 13 ∧
    ((start 0x3000 0xDFFF flagZ [] []).readMem 0x3000).toNat / 4096 = 13 := by decide

theorem witness_OnlyLoadsReportAReadAddress :
    (∀ dr off, Instr.sti 1 2 ≠ .ld dr off) ∧ (∀ dr off, Instr.sti 1 2 ≠ .ldi dr off) ∧
    (∀ dr baseR off, Instr.sti 1 2 ≠ .ldr dr baseR off) := by
  refine ⟨?_, ?_, ?_⟩ <;> intros <;> simp

theorem witness_StateIsWrittenOnlyAsTheTableSays :
    exec (.st 0 0) sample = .next (sample.storeWord 0x3001 0x0005) ∧ setccDest (.st 0 0) = none ∧
    Instr.st 0 0 ≠ .rti := ⟨rfl, rfl, by decide⟩

/-- Two memories that differ, and agree on the word that LD reads. -/
theorem witness_InstructionsReadOnlyTheirFootprint :
    exec (.ld 1 0) sample = .next (sample.writeResult 1 0x0000) ∧ sample.mem.write 0x0000 0x0001 ≠ sample.mem ∧
    ∀ a ∈ readsOf (.ld 1 0) sample, sample.readMem a = (sample.mem.write 0x0000 0x0001).read a := by
  refine ⟨rfl, by decide, fun a ha => ?_⟩
  obtain rfl : a = sample.pcRelative (0 : BitVec 9) := by simpa [readsOf] using ha
  decide

theorem witness_NoInstructionTouchesTheSwapStackPointer :
    exec .rti sample = .next sample.returnFromInterrupt ∧ sample.sspSaved ≠ sample.readReg 6 := ⟨rfl, by decide⟩

theorem witness_NoInstructionReadsPsr :
    exec .rti sample = .next sample.returnFromInterrupt ∧
    exec (.jmp 7) sample = .next (sample.setPc 0x1111) := ⟨rfl, rfl⟩

theorem witness_MemoryReturnsTheMostRecentWrite :
    ∀ e ∈ [((0x0001 : Word), (0x0007 : Word)), (0xFFFF, 0x0009)], e.1 ≠ (0x0000 : Word) := by simp

theorem witness_ResetGivesEveryPieceItsValue : (5 : RegIdx) ≠ 6 ∧ (7 : RegIdx) ≠ 6 := by decide

theorem sample_inv : Safety.Inv sample := by
  refine ⟨⟨by decide, by decide, by decide⟩, by decide⟩

theorem witness_EveryStepKeepsTheInvariant :
    Safety.Inv sample ∧ step sample = .next (sample.writeResult 0 0x0006) := ⟨sample_inv, rfl⟩

theorem witness_EveryReachableStateHasTheInvariant :
    Safety.Inv sample ∧ Reachable resetParams .targetFirst
      (HostOp.apply resetParams .targetFirst .step (State.resetWith resetParams)) :=
  ⟨sample_inv, .after _ .step .created⟩

theorem sample_exactlyOneFlag : ExactlyOneFlag sample := ⟨⟨by decide, by decide, by decide⟩, by decide⟩

theorem witness_ExactlyOneFlagEverAfterSetcc :
    ExactlyOneFlag sample ∧ Steps .linkFirst 1 sample (sample.writeResult 0 0x0006) ∧
    exec (.addImm 0 0 1) sample = .next (sample.writeResult 0 0x0006) ∧ setccDest (.addImm 0 0 1) = some 0 ∧
    exec (.jmp 7) sample = .next (sample.setPc 0x1111) ∧ setccDest (.jmp 7) = none :=
  ⟨sample_exactlyOneFlag, .more rfl (.none _), rfl, rfl, rfl, rfl⟩

/-- Both sides of the address-space bound. -/
theorem witness_LoadCopiesThePayloadOrChangesNothing :
    (0xFFFF : Word).toNat + [(0x0001 : Word)].length ≤ 65536 ∧
    65536 < (0xFFFF : Word).toNat + [(0x0001 : Word), 0x0002].length ∧
    ((0x0000 : Word).toNat < (0xFFFF : Word).toNat) ∧
    ((0x3000 : Word).toNat + [(0x0001 : Word)].length ≤ (0x3001 : Word).toNat) := by decide

/-- Two loads that overlap in one word. -/
theorem witness_LaterLoadsOverwriteEarlierOnes :
    let t := (load [0x3000, 0x0001, 0x0002] State.reset).2
    load [0x3000, 0x0001, 0x0002] State.reset = (.ok, t) ∧ load [0x3001, 0x0003] t = (.ok, (load [0x3001, 0x0003] t).2) ∧
    (0x3000 : Word).toNat + 0 < (0x3001 : Word).toNat := by decide

theorem witness_RunToHaltStopsAtTheFirstHaltState :
    runToHalt .linkFirst 0x3001 3 sample = (.halted, sample.writeResult 0 0x0006) ∧
    runToHalt .linkFirst 0x4000 0 sample = (.budgetExhausted, sample) ∧
    (let s := start 0x3000 0xD123 flagZ [] []
     runToHalt .linkFirst 0x4000 1 s = (.unrecognized, s)) := by decide

/-- A one-word loop: BRnzp #-1 with Z set. -/
def loop : State := start 0x3000 0x0FFF flagZ [] []

theorem steps_loop {n : Nat} {u : State} (h : Steps .linkFirst n loop u) : u = loop := by
  have hs : stepIn .linkFirst loop = .next loop := rfl
  induction n with
  | zero => cases h; rfl
  | succ n ih =>
    cases h with
    | more h1 h2 =>
      rw [hs] at h1
      cases h1
      exact ih h2

/-- A run that returns without a budget, and one that does not. -/
theorem witness_RunWithoutBudgetReturnsOneResult :
    RunReturns .linkFirst 0x3001 none sample .halted (sample.writeResult 0 0x0006) ∧
    ∀ n u, Steps .linkFirst n loop u → ¬EndsNormally 0x4000 u ∧ Recognized u := by
  refine ⟨⟨by decide, 3, by decide⟩, fun n u h => ?_⟩
  rw [steps_loop h]
  exact ⟨by unfold EndsNormally; decide, by unfold Recognized; decide⟩

/-- Both sides of both bounds of a 5-bit field, and of the upper bound of the vector. -/
theorem witness_FieldsAcceptExactlyTheirRange :
    ((0x00FF : Word).toNat ≤ 255 ∧ 255 < (0x0100 : Word).toNat ∧ 255 < (0xFFFF : Word).toNat) ∧
    5 ∈ [5, 6, 9, 11] ∧ 11 ∈ [5, 6, 9, 11] ∧
    (-(2 ^ (5 - 1) : Int) ≤ (0xFFF0 : Word).toInt ∧ (0xFFF0 : Word).toInt ≤ 2 ^ (5 - 1) - 1) ∧
    (-(2 ^ (5 - 1) : Int) ≤ (0x000F : Word).toInt ∧ (0x000F : Word).toInt ≤ 2 ^ (5 - 1) - 1) ∧
    ¬(-(2 ^ (5 - 1) : Int) ≤ (0x0010 : Word).toInt ∧ (0x0010 : Word).toInt ≤ 2 ^ (5 - 1) - 1) ∧
    ¬(-(2 ^ (5 - 1) : Int) ≤ (0xFFEF : Word).toInt ∧ (0xFFEF : Word).toInt ≤ 2 ^ (5 - 1) - 1) := by decide

/-- The bounds of each field, and an operand of each kind that resolves to a value. -/
theorem witness_EncodedRecordsHaveTheseForms :
    (-16 ≤ (0xFFF0 : Word).toInt ∧ (0x000F : Word).toInt ≤ 15) ∧
    (-32 ≤ (0xFFE0 : Word).toInt ∧ (0x001F : Word).toInt ≤ 31) ∧
    (-256 ≤ (0xFF00 : Word).toInt ∧ (0x00FF : Word).toInt ≤ 255) ∧
    (-1024 ≤ (0xFC00 : Word).toInt ∧ (0x03FF : Word).toInt ≤ 1023) ∧ (0x00FF : Word).toNat ≤ 255 ∧
    resolveOperand [] 0x3000 (anImm 0xFFFF) = .ok (.value 0xFFFF) ∧
    resolveOperand [("L", 0x3002)] 0x3000 (.label "L") = .ok (.value 0x0001) :=
  ⟨by decide, by decide, by decide, by decide, by decide, rfl, by simp [resolveOperand, lookupLabel]⟩

/-- A wrong count; a wrong kind in the second place; a good shape with its label missing, and with it present. -/
theorem witness_RecordsAreValidatedInOrder :
    [Operand.reg 1].length ≠ (layout .not).length ∧
    (operandKind (anImm 1) ∉ slotKinds .reg ∧ operandKind (.reg 1) ∈ slotKinds .reg ∧
      [Operand.reg 1, anImm 1].length = (layout .not).length) ∧
    (checkShape .ld [.reg 0, .label "L"] = .ok () ∧ Operand.label "L" ∈ [.reg 0, Operand.label "L"] ∧
      lookupLabel [] "L" = none ∧ lookupLabel [("L", 0x3002)] "L" ≠ none) :=
  ⟨by decide, by decide, rfl, by decide, rfl, by simp [lookupLabel]⟩

/-- For every kind of record, a state that holds its assembled word at the pc. -/
theorem witness_AssembledLabelsReachTheirAddress :
    let tab : SymTab := [("L", 0x3002)]
    let at3000 (w : Word) := start 0x3000 w flagZ [] []
    lookupLabel tab "L" = some 0x3002 ∧
    (∀ w, (at3000 w).pc = 0x3000) ∧ (at3000 0x0401).readMem 0x3000 = 0x0401 ∧
    (encodeRecord tab 0x3000 (.br false true false) [.label "L"]).toOption = some 0x0401 ∧
    (encodeRecord tab 0x3000 .jsr [.label "L"]).toOption = some 0x4801 ∧
    (encodeRecord tab 0x3000 .ld [.reg 1, .label "L"]).toOption = some 0x2201 ∧
    (encodeRecord tab 0x3000 .ldi [.reg 1, .label "L"]).toOption = some 0xA201 ∧
    (encodeRecord tab 0x3000 .lea [.reg 1, .label "L"]).toOption = some 0xE201 ∧
    (encodeRecord tab 0x3000 .st [.reg 1, .label "L"]).toOption = some 0x3201 ∧
    (encodeRecord tab 0x3000 .sti [.reg 1, .label "L"]).toOption = some 0xB201 :=
  ⟨by decide, fun _ => rfl, by decide, by decide, by decide, by decide, by decide, by decide, by decide, by decide⟩

/-- The largest or smallest immediate of each field. -/
theorem witness_AssembledImmediatesExecuteAsGiven :
    (start 0x3000 0x1050 flagZ [] []).pc = 0x3000 ∧ (start 0x3000 0x1070 flagZ [] []).readMem 0x3000 = 0x1070 ∧
    (encodeRecord [] 0x3000 .add [.reg 0, .reg 1, anImm 0xFFF0]).toOption = some 0x1070 ∧
    (encodeRecord [] 0x3000 .and [.reg 0, .reg 1, anImm 0x000F]).toOption = some 0x506F ∧
    (encodeRecord [] 0x3000 .ldr [.reg 0, .reg 1, anImm 0x001F]).toOption = some 0x605F ∧
    (encodeRecord [] 0x3000 .str [.reg 0, .reg 1, anImm 0xFFE0]).toOption = some 0x7060 ∧
    (encodeRecord [] 0x3000 (.br true false true) [anImm 0xFF00]).toOption = some 0x0B00 ∧
    (encodeRecord [] 0x3000 .ld [.reg 0, anImm 0x00FF]).toOption = some 0x20FF ∧
    (encodeRecord [] 0x3000 .ldi [.reg 0, anImm 0xFF00]).toOption = some 0xA100 ∧
    (encodeRecord [] 0x3000 .lea [.reg 0, anImm 0xFF00]).toOption = some 0xE100 ∧
    (encodeRecord [] 0x3000 .st [.reg 0, anImm 0x00FF]).toOption = some 0x30FF ∧
    (encodeRecord [] 0x3000 .sti [.reg 0, anImm 0xFF00]).toOption = some 0xB100 ∧
    (encodeRecord [] 0x3000 .jsr [anImm 0x03FF]).toOption = some 0x4BFF ∧
    (encodeRecord [] 0x3000 .trap [anImm 0x00FF]).toOption = some 0xF0FF := by decide

/-- A blank record, an origin with a label, an instruction, and a label at the end. -/
theorem witness_PassOneGivesEveryWordAndLabelItsAddress :
    let rest := [record 2 none (.instr .rti []), record 3 (some "E") .noWord]
    (∀ r ∈ [record 1 none .noWord], recordIsBlank r = true) ∧
    (record 1 (some "O") (.origin 0x3000)).body = .origin 0x3000 ∧
    (pass1 .error ([record 1 none .noWord] ++ record 1 (some "O") (.origin 0x3000) :: rest)).toOption =
      some (0x3000, [("O", 0x3000), ("E", 0x3001)], [⟨0x3000, record 2 none (.instr .rti []), .rti, []⟩]) ∧
    (∀ r ∈ rest.drop 2, r.label ≠ some "E") ∧ (∀ r ∈ rest, r.label ≠ some "O") := by decide

theorem witness_BindingADefinedLabelFollowsThePolicy :
    (record 2 (some "X") .noWord).label = some "X" ∧ lookupLabel [("X", 0x3000)] "X" ≠ none ∧
    lookupLabel [] "X" = none := by decide

/-- A blank record; a label-only one first; an origin met again with no label twice before it, which fits both
policies; and a label that the origin record already carries, under the policy ERROR. -/
theorem witness_OriginIsRequiredFirstAndOnce :
    let first := record 1 (some "X") (.origin 0x3000)
    let other := record 2 (some "Y") (.instr .rti [])
    let again := record 3 (some "X") .noWord
    recordIsBlank (record 1 none .noWord) = true ∧
    (recordIsBlank (record 1 (some "X") .noWord) = false ∧ ∀ o, (record 1 (some "X") .noWord).body ≠ .origin o) ∧
    (first.body = .origin 0x3000 ∧ (∀ q ∈ [other, again], ∀ x, q.body ≠ .origin x) ∧
      (record 4 none (.origin 0x4000)).body = .origin 0x4000) ∧
    ([first, other].filterMap Record.label).Nodup ∧
    (DupLabelPolicy.error = .error ∧ first :: [other, again] = [first, other] ++ again :: [] ∧ again.label = some "X" ∧
      "X" ∈ [first, other].filterMap Record.label) :=
  ⟨by decide, ⟨by decide, by simp [record]⟩, ⟨rfl, by simp [record], rfl⟩, by decide, rfl, rfl, rfl, by decide⟩

/-- A second origin under both policies (R175), and a label defined twice met before it (R176, R177). -/
theorem test_second_origin_and_repeated_label :
    let first := record 1 (some "X") (.origin 0x3000)
    let again := record 3 (some "X") .noWord
    let second := record 4 none (.origin 0x4000)
    answer (assemble .error [first, second]) = ([], some (.duplicateOrigin, 4)) ∧
    answer (assemble .lastWins [first, again, second]) = ([], some (.duplicateOrigin, 4)) ∧
    answer (assemble .error [first, again, second]) = ([], some (.duplicateLabel "X", 3)) := by decide

theorem witness_FirstErrorOfTheFirstPassWins :
    (∃ e, pass1 .error [record 2 none (.instr .rti [])] = .error e) ∧
    (let bad := record 3 none (.instr .rti [.reg 1])
     (pass1 .error [record 1 none (.origin 0x3000), record 2 none (.instr .rti []), bad]).toOption =
       some (0x3000, [], [⟨0x3000, record 2 none (.instr .rti []), .rti, []⟩] ++ ⟨0x3001, bad, .rti, [.reg 1]⟩ :: []) ∧
     (encodeRecord [] 0x3000 .rti []).toOption = some 0x8000 ∧
     encodeRecord [] 0x3001 .rti [.reg 1] = .error (.operandCountMismatch 0 1)) :=
  ⟨⟨_, rfl⟩, by decide, by decide, rfl⟩

theorem witness_ErrorsCarryTheLineAndTextOfARecord :
    (∃ e, assemble .error [record 2 none (.instr .rti [])] = .error e) ∧ ∃ e, assemble .error [] = .error e :=
  ⟨⟨_, rfl⟩, _, rfl⟩

theorem witness_AssembledProgramStandsInMemoryAsItsInstructions :
    let rs := [record 1 none (.origin 0xFFFF), record 2 none (.instr .rti [])]
    (assemble .error rs).toOption = some [0xFFFF, 0x8000] ∧
    load [0xFFFF, 0x8000] State.reset = (.ok, State.reset.writeMem 0xFFFF 0x8000) := by decide

end Sys2Proof.Tests
end

namespace Sys2Proof.Proofs

open Sys2Proof.Machine Sys2Proof.Safety Sys2Proof.Laws

/-! ## Sign extension (00_scope R12) -/

/-- The bits of a word's low field, sign-extended: its own bits below the width, its top bit from there on. -/
theorem getLsbD_sext_lowField {n : Nat} (hpos : 0 < n) (v : Word) {k : Nat} (hk : k < 16) :
    (sext (v.extractLsb' 0 n)).getLsbD k = if k < n then v.getLsbD k else v.getLsbD (n - 1) := by
  have htop : n - 1 < n := Nat.sub_lt hpos Nat.one_pos
  simp only [sext, BitVec.getLsbD_signExtend, BitVec.msb_eq_getLsbD_last, BitVec.getLsbD_extractLsb', Nat.zero_add,
    hk, htop, decide_true, Bool.true_and]
  split
  next hlt => simp [hlt]
  next => rfl

/-- The word of a number taken modulo `2 ^ n` has the bits of the number below `n`, and none from there on. -/
theorem getLsbD_wordOf_mod (v : Word) (n : Nat) {k : Nat} (hk : k < 16) :
    (wordOf (v.toNat % 2 ^ n)).getLsbD k = (decide (k < n) && v.getLsbD k) := by
  simp only [wordOf, BitVec.getLsbD_ofNat, Nat.testBit_mod_two_pow, hk, decide_true, Bool.true_and,
    BitVec.testBit_toNat]

/-- `0xFFFF << n` has exactly the bits from `n` on. -/
theorem getLsbD_ones_shiftLeft (n : Nat) {k : Nat} (hk : k < 16) :
    ((0xFFFF : Word) <<< n).getLsbD k = !decide (k < n) := by
  have hones : (0xFFFF : Word).getLsbD (k - n) = true := by
    rw [show (0xFFFF : Word) = BitVec.allOnes 16 by decide, BitVec.getLsbD_allOnes]
    exact decide_eq_true (by omega)
  simp only [BitVec.getLsbD_shiftLeft, hk, hones, decide_true, Bool.true_and, Bool.and_true]

/-- A clear sign bit: the extension has no bit above the field. -/
theorem sext_lowField_of_clear {n : Nat} (hpos : 0 < n) (v : Word) (hsign : v.getLsbD (n - 1) = false) :
    sext (v.extractLsb' 0 n) = wordOf (v.toNat % 2 ^ n) := by
  apply BitVec.eq_of_getLsbD_eq
  intro k hk
  rw [getLsbD_sext_lowField hpos v hk, getLsbD_wordOf_mod v n hk, hsign]
  by_cases hlt : k < n <;> simp [hlt]

/-- A set sign bit: the extension has every bit above the field. -/
theorem sext_lowField_of_set {n : Nat} (hpos : 0 < n) (v : Word) (hsign : v.getLsbD (n - 1) = true) :
    sext (v.extractLsb' 0 n) = ((0xFFFF : Word) <<< n) ||| wordOf (v.toNat % 2 ^ n) := by
  apply BitVec.eq_of_getLsbD_eq
  intro k hk
  rw [getLsbD_sext_lowField hpos v hk, BitVec.getLsbD_or, getLsbD_ones_shiftLeft n hk, getLsbD_wordOf_mod v n hk,
    hsign]
  by_cases hlt : k < n <;> simp [hlt]

/-- Sign extension of a field that fits in a word keeps the field's signed value. -/
theorem toInt_sext {n : Nat} (hn : n ≤ 16) (f : BitVec n) : (sext f).toInt = f.toInt :=
  BitVec.toInt_signExtend_of_le hn

/-- Settles O7: the two cases of R12 bit by bit, and the value they both keep. -/
theorem signExtensionReplicatesTheSignBit : Obligations.SignExtensionReplicatesTheSignBit :=
  fun _ hpos hn v => ⟨sext_lowField_of_clear hpos v, sext_lowField_of_set hpos v, toInt_sext hn _⟩

/-! ## The invariant under each operation of the host (00_scope R7, 10_state R25) -/

/-- Exactly one flag is set in a state whose flags come from `setcc`. -/
theorem exactlyOneFlag_of_setcc {t : State} {v : Word} (h : t.flags = setcc v) : ExactlyOneFlag t := by
  unfold ExactlyOneFlag AtMostOneFlag
  rw [h]
  rcases setcc_exactlyOne v with hv | hv | hv <;> simp [hv]

/-- Mutual exclusion of the flags is a property of the flags alone. -/
theorem atMostOneFlag_of_flagsKept {s t : State} (hflags : FlagsKept s t) (hs : AtMostOneFlag s) :
    AtMostOneFlag t := by
  unfold AtMostOneFlag
  rw [show t.flags = s.flags from hflags]
  exact hs

/-- A state that keeps the flags and has a canonical memory keeps the invariant. -/
theorem inv_of_flagsKept {s t : State} (hs : Inv s) (hflags : FlagsKept s t) (hmem : t.mem.wf = true) : Inv t :=
  ⟨atMostOneFlag_of_flagsKept hflags hs.1, hmem⟩

/-- Each of the five shapes of a next state keeps the invariant. -/
theorem nextShape_keeps_inv {i : Instr} {s t : State} (h : NextShape i s t) (hs : Inv s) : Inv t := by
  cases h with
  | result dr v => exact ⟨(exactlyOneFlag_of_setcc (writeResult_flags s dr v)).1, hs.2⟩
  | jump target => exact inv_of_flagsKept hs rfl hs.2
  | call target => exact inv_of_flagsKept hs rfl hs.2
  | store a v => exact inv_of_flagsKept hs rfl (wf_write _ a v hs.2)
  | back => exact inv_of_flagsKept hs rfl hs.2

/-- A step in either order keeps the invariant. -/
theorem stepIn_keeps_inv {order : LinkOrder} {s t : State} (h : stepIn order s = .next t) (hs : Inv s) : Inv t :=
  nextShape_keeps_inv (execIn_next h) hs

/-- The host's step keeps the invariant: it is a step, or changes nothing. -/
theorem hostStep_keeps_inv (order : LinkOrder) {s : State} (hs : Inv s) : Inv (hostStep order s).2 := by
  rcases hostStep_cases order s with ⟨-, hstop⟩ | ⟨-, t, hstep, hnext⟩
  · rw [hstop]
    exact hs
  · rw [hnext]
    exact stepIn_keeps_inv hstep hs

/-- A run to the halt sentinel keeps the invariant, whatever its budget and however it ends. -/
theorem runToHalt_keeps_inv (order : LinkOrder) (haltPc : Word) (budget : Nat) :
    ∀ {s : State}, Inv s → Inv (runToHalt order haltPc budget s).2 := by
  induction budget with
  | zero =>
    intro s hs
    unfold runToHalt
    split <;> exact hs
  | succ n ih =>
    intro s hs
    unfold runToHalt
    split
    next => exact hs
    next =>
      have hstep := hostStep_keeps_inv order hs
      rcases hostStep_cases order s with ⟨-, hstop⟩ | ⟨-, t, -, hnext⟩
      · rw [hstop]
        exact hs
      · rw [hnext] at hstep ⊢
        exact ih hstep

/-- A load keeps the invariant: it leaves the flags alone and writes memory, or it fails and writes nothing. -/
theorem load_keeps_inv (stream : List Word) {s : State} (hs : Inv s) : Inv (load stream s).2 := by
  cases stream with
  | nil => exact hs
  | cons origin payload =>
    simp only [load]
    split
    next => exact hs
    next => exact inv_of_flagsKept hs (writeWords_flags payload s origin) (writeWords_wf payload s origin hs.2)

/-- Taking an interrupt keeps the invariant: its two pushes are memory writes, and the flags stay. -/
theorem interrupt_keeps_inv (vector : Word) {s : State} (hs : Inv s) : Inv (interrupt vector s) := by
  obtain ⟨-, -, -, hmem, -, hflags, -⟩ := takeInterrupt_spec s vector
  refine inv_of_flagsKept hs hflags ?_
  unfold interrupt
  rw [hmem]
  exact wf_write _ _ _ (wf_write _ _ _ hs.2)

/-- The invariant holds after a reset over any canonical memory: each value of `RESET_NZP` sets at most one flag. -/
theorem resetOver_inv (p : ResetParams) {m : Memory} (hm : m.wf = true) : Inv (State.resetOver p m) := by
  refine ⟨?_, hm⟩
  have hflags : (State.resetOver p m).flags = resetFlagsOf p.resetNzp := rfl
  unfold AtMostOneFlag
  rw [hflags]
  cases p.resetNzp <;> decide

/-- The invariant holds after reset, for every choice of the open parameters. -/
theorem resetWith_inv (p : ResetParams) : Inv (State.resetWith p) := resetOver_inv p (wf_ofFunction p.memInit)

/-- Every operation of the host's closed set keeps the invariant. -/
theorem hostOp_keeps_inv (p : ResetParams) (order : LinkOrder) (op : HostOp) {s : State} (hs : Inv s) :
    Inv (op.apply p order s) := by
  cases op with
  | reset => exact resetWith_inv p
  | load stream => exact load_keeps_inv stream hs
  | step => exact hostStep_keeps_inv order hs
  | runToHalt haltPc budget => exact runToHalt_keeps_inv order haltPc budget hs
  | interrupt vector => exact interrupt_keeps_inv vector hs

/-- Every reachable state has the invariant. -/
theorem reachable_inv {p : ResetParams} {order : LinkOrder} {s : State} (h : Reachable p order s) : Inv s := by
  induction h with
  | created => exact resetWith_inv p
  | after s op _ ih => exact hostOp_keeps_inv p order op ih

/-- Settles O41: each host operation keeps the invariant, and reachability is built from reset by these. -/
theorem everyReachableStateHasTheInvariant : Obligations.EveryReachableStateHasTheInvariant :=
  ⟨fun p order op _ => hostOp_keeps_inv p order op, fun _ _ _ => reachable_inv⟩

end Sys2Proof.Proofs

namespace Sys2Proof.Proofs

open Sys2Proof.Machine Sys2Proof.Safety Sys2Proof.Laws

/-! ## The invariant under a step and after reset (10_state R25, R28, R30) -/

/-- Settles O39: `step` is the step in the order `jsrrLinkOrder`, and a step in either order keeps the invariant. -/
theorem everyStepKeepsTheInvariant : Obligations.EveryStepKeepsTheInvariant :=
  fun s _ hs hstep => stepIn_keeps_inv ((stepIn_jsrrLinkOrder s).trans hstep) hs

/-- Settles O40: at every choice of the open parameters, the model's own among them. -/
theorem resetHasTheInvariant : Obligations.ResetHasTheInvariant :=
  ⟨resetWith_inv, reset_eq_resetWith ▸ resetWith_inv resetParams⟩

/-- At the model's choices the stack pointer resets to the same zero as every other register. -/
theorem reset_readReg (r : RegIdx) : State.reset.readReg r = 0x0000 := by
  revert r
  decide

/-- Settles O38: the choices are read off `resetParams`; no cell is listed, so every word reads as `unlisted`. -/
theorem modelResetIsTheSpecResetAtItsChoices : Obligations.ModelResetIsTheSpecResetAtItsChoices :=
  ⟨reset_eq_resetWith, rfl, reset_readReg, rfl, rfl, rfl, read_empty⟩

/-! ## What each shape of a next state writes (10_state R32) -/

/-- The flags of a next state: set from a result by the operations with a `setcc` destination, kept by all others. -/
theorem nextShape_flags {i : Instr} {s t : State} (h : NextShape i s t) :
    (setccDest i ≠ none ∧ ∃ v, t.flags = setcc v) ∨ (setccDest i = none ∧ FlagsKept s t) := by
  cases h with
  | result dr v hdest => exact .inl ⟨by simp [hdest], v, rfl⟩
  | jump target hdest => exact .inr ⟨hdest, rfl⟩
  | call target hdest => exact .inr ⟨hdest, rfl⟩
  | store a v hdest => exact .inr ⟨hdest, rfl⟩
  | back hrti => exact .inr ⟨by rw [hrti]; rfl, rfl⟩

/-- An instruction without a `setcc` destination keeps the flags. -/
theorem exec_keeps_flags {i : Instr} {s t : State} (h : exec i s = .next t) (hdest : setccDest i = none) :
    FlagsKept s t := by
  rcases nextShape_flags (exec_next h) with ⟨hsome, -⟩ | ⟨-, hkept⟩
  · exact absurd hdest hsome
  · exact hkept

/-- An instruction writes only the registers that `regsWritten` lists for it. -/
theorem nextShape_regsKept {i : Instr} {s t : State} (h : NextShape i s t) : RegsKept s t (regsWritten i) := by
  intro r hr
  cases h with
  | result dr v hdest hregs =>
    have hne : r ≠ dr := by simpa [hregs] using hr
    rw [writeResult_readReg, if_neg hne]
  | jump target => rfl
  | call target hdest hregs =>
    have hne : r ≠ linkReg := by simpa [hregs, linkReg] using hr
    rw [linkAndJump_readReg, if_neg hne]
  | store a v => rfl
  | back hrti =>
    obtain ⟨-, -, -, hothers, -⟩ := returnFromInterrupt_spec s
    exact hothers r (by simpa [hrti, regsWritten] using hr)

/-- An instruction writes only the words of memory that `writesOf` lists for it. -/
theorem nextShape_memKept {i : Instr} {s t : State} (h : NextShape i s t) : MemKept s t (writesOf i s) := by
  intro b hb
  cases h with
  | result dr v => rfl
  | jump target => rfl
  | call target => rfl
  | store a v hdest hregs hwrites =>
    have hne : b ≠ a := by simpa [hwrites] using hb
    rw [storeWord_readMem, if_neg hne]
  | back => rfl

/-- Only RTI writes `PSR`. -/
theorem nextShape_psr {i : Instr} {s t : State} (h : NextShape i s t) (hrti : i ≠ .rti) : t.psr = s.psr := by
  cases h with
  | result dr v => rfl
  | jump target => rfl
  | call target => rfl
  | store a v => rfl
  | back hi => exact absurd hi hrti

/-- No instruction writes the swap stack pointer. -/
theorem nextShape_sspSaved {i : Instr} {s t : State} (h : NextShape i s t) : t.sspSaved = s.sspSaved := by
  cases h <;> rfl

/-! ## What an interrupt and a load write -/

/-- The address of the second push, as an offset from the swap stack pointer. -/
theorem sub_two_add_one (v : Word) : v - 2 + 1 = v - 1 := by bv_omega

/-- `interrupt` keeps the flags. -/
theorem interrupt_flags (v : Word) (s : State) : (interrupt v s).flags = s.flags := by
  obtain ⟨-, -, -, -, -, hflags, -⟩ := takeInterrupt_spec s v
  exact hflags

/-- `interrupt` keeps `PSR`. -/
theorem interrupt_psr (v : Word) (s : State) : (interrupt v s).psr = s.psr := by
  obtain ⟨-, -, -, -, -, -, hpsr⟩ := takeInterrupt_spec s v
  exact hpsr

/-- Memory after `interrupt`: the pc two words below the swap stack pointer, `PSR` one word below it. -/
theorem interrupt_readMem (v : Word) (s : State) (a : Word) :
    (interrupt v s).readMem a =
      if a = s.sspSaved - 1 then s.psr else if a = s.sspSaved - 2 then s.pc else s.readMem a := by
  obtain ⟨-, -, -, hmem, -⟩ := takeInterrupt_spec s v
  rw [sub_two_add_one] at hmem
  unfold interrupt State.readMem
  rw [hmem, read_write, read_write]

/-- `interrupt` writes no word of memory but the two it pushes. -/
theorem interrupt_memKept (v : Word) (s : State) :
    MemKept s (interrupt v s) [s.sspSaved - 2, s.sspSaved - 1] := by
  intro a ha
  obtain ⟨hlow, hhigh⟩ : a ≠ s.sspSaved - 2 ∧ a ≠ s.sspSaved - 1 := by simpa using ha
  rw [interrupt_readMem, if_neg hhigh, if_neg hlow]

/-- `interrupt` writes no register but R6. -/
theorem interrupt_regsKept (v : Word) (s : State) : RegsKept s (interrupt v s) [6] := by
  obtain ⟨-, -, hothers, -⟩ := takeInterrupt_spec s v
  exact fun r hr => hothers r (by simpa using hr)

/-- A load leaves the state alone, or writes words to memory. -/
theorem load_cases (stream : List Word) (s : State) :
    (load stream s).2 = s ∨ ∃ a ws, (load stream s).2 = s.writeWords a ws := by
  cases stream with
  | nil => exact .inl rfl
  | cons origin payload =>
    simp only [load]
    split
    next => exact .inl rfl
    next => exact .inr ⟨origin, payload, rfl⟩

/-- A load writes nothing but memory (70_reset_and_hazards R223). -/
theorem load_frame (stream : List Word) (s : State) :
    (load stream s).2.pc = s.pc ∧ RegsKept s (load stream s).2 [] ∧ FlagsKept s (load stream s).2 ∧
      ControlKept s (load stream s).2 := by
  rcases load_cases stream s with hsame | ⟨a, ws, hwritten⟩
  · rw [hsame]
    exact ⟨rfl, fun _ _ => rfl, rfl, rfl, rfl⟩
  · rw [hwritten]
    exact ⟨writeWords_pc ws s a, fun r _ => writeWords_readReg ws r s a, writeWords_flags ws s a,
      writeWords_psr ws s a, writeWords_sspSaved ws s a⟩

/-- Settles O31: the instructions by the shapes of their next states, then `interrupt` and `load`. -/
theorem stateIsWrittenOnlyAsTheTableSays : Obligations.StateIsWrittenOnlyAsTheTableSays := by
  refine ⟨fun i s t h => ?_,
    fun v s => ⟨interrupt_regsKept v s, interrupt_flags v s, interrupt_psr v s, interrupt_memKept v s⟩, load_frame⟩
  have hshape := exec_next h
  exact ⟨nextShape_regsKept hshape, nextShape_memKept hshape, exec_keeps_flags h, nextShape_psr hshape,
    nextShape_sspSaved hshape⟩

/-! ## The flags over time (10_state R25) -/

/-- Having exactly one flag is a property of the flags alone. -/
theorem exactlyOneFlag_of_flagsKept {s t : State} (hflags : FlagsKept s t) (hs : ExactlyOneFlag s) :
    ExactlyOneFlag t := by
  refine ⟨atMostOneFlag_of_flagsKept hflags hs.1, ?_⟩
  rw [show t.flags = s.flags from hflags]
  exact hs.2

/-- A step in either order sets the flags with `setcc` or keeps them, so one flag stays set. -/
theorem stepIn_keeps_exactlyOneFlag {order : LinkOrder} {s t : State} (h : stepIn order s = .next t)
    (hs : ExactlyOneFlag s) : ExactlyOneFlag t := by
  rcases nextShape_flags (execIn_next h) with ⟨-, v, hset⟩ | ⟨-, hkept⟩
  · exact exactlyOneFlag_of_setcc hset
  · exact exactlyOneFlag_of_flagsKept hkept hs

/-- One flag stays set along every run of steps. -/
theorem steps_keep_exactlyOneFlag {order : LinkOrder} {n : Nat} {s t : State} (h : Steps order n s t)
    (hs : ExactlyOneFlag s) : ExactlyOneFlag t := by
  induction h with
  | none s => exact hs
  | more hstep _ ih => exact ih (stepIn_keeps_exactlyOneFlag hstep hs)

/-- Each of the seven operations leaves exactly one flag set. -/
theorem exec_exactlyOneFlag {i : Instr} {s t : State} {dr : RegIdx} (h : exec i s = .next t)
    (hdest : setccDest i = some dr) : ExactlyOneFlag t := by
  rcases nextShape_flags (exec_next h) with ⟨-, v, hset⟩ | ⟨hnone, -⟩
  · exact exactlyOneFlag_of_setcc hset
  · simp [hnone] at hdest

/-- Settles O42: by induction on the run of steps; interrupts and loads keep the flags. -/
theorem exactlyOneFlagEverAfterSetcc : Obligations.ExactlyOneFlagEverAfterSetcc := by
  refine ⟨fun _ _ _ _ => exec_exactlyOneFlag, fun _ _ _ _ hs hsteps => steps_keep_exactlyOneFlag hsteps hs,
    fun s v => exactlyOneFlag_of_flagsKept (interrupt_flags v s), fun s stream hs => ?_,
    fun _ _ _ => exec_keeps_flags⟩
  obtain ⟨-, -, hflags, -⟩ := load_frame stream s
  exact exactlyOneFlag_of_flagsKept hflags hs

/-! ## What no operand comes from: flags, `PSR`, `SSP_SAVED` (10_state R24, R26, R27)

An instruction computes its operands from the registers, the pc and memory. Two states that agree on these do the
same operation with the same operands, whatever else they hold; BR also needs the same answer from the flags. -/

/-- The two states agree on everything that operands are computed from. -/
structure OperandsAgree (s s' : State) : Prop where
  regs : s'.regs = s.regs
  pc : s'.pc = s.pc
  mem : s'.mem = s.mem

theorem operandsAgree_setFlags (s : State) (f : Flags) : OperandsAgree s (s.setFlags f) := ⟨rfl, rfl, rfl⟩
theorem operandsAgree_setPsr (s : State) (x : Word) : OperandsAgree s (s.setPsr x) := ⟨rfl, rfl, rfl⟩
theorem operandsAgree_setSspSaved (s : State) (x : Word) : OperandsAgree s (s.setSspSaved x) := ⟨rfl, rfl, rfl⟩

section
variable {s s' : State} (hagree : OperandsAgree s s')
include hagree

theorem readReg_of_agree (r : RegIdx) : s'.readReg r = s.readReg r := by
  unfold State.readReg
  rw [hagree.regs]

theorem readMem_of_agree (a : Word) : s'.readMem a = s.readMem a := by
  unfold State.readMem
  rw [hagree.mem]

theorem incPc_of_agree : s'.incPc = s.incPc := by
  unfold State.incPc
  rw [hagree.pc]

theorem pcRelative_of_agree {n : Nat} (off : BitVec n) : s'.pcRelative off = s.pcRelative off := by
  unfold State.pcRelative
  rw [incPc_of_agree hagree]

theorem indirect_of_agree (off : BitVec 9) : s'.indirect off = s.indirect off := by
  unfold State.indirect
  rw [pcRelative_of_agree hagree, readMem_of_agree hagree]

theorem baseOffset_of_agree (b : RegIdx) (off : BitVec 6) : s'.baseOffset b off = s.baseOffset b off := by
  unfold State.baseOffset
  rw [readReg_of_agree hagree]

theorem trapEntry_of_agree (vector : BitVec 8) : s'.trapEntry vector = s.trapEntry vector :=
  readMem_of_agree hagree _

end

/-- The next states of one instruction from two states: the same one of the five shapes, with the same operands. -/
inductive PairedShape (i : Instr) (s s' : State) : State → State → Prop where
  | result (dr : RegIdx) (v : Word) : setccDest i = some dr → i ≠ .rti →
      PairedShape i s s' (s.writeResult dr v) (s'.writeResult dr v)
  | jump (target : Word) : setccDest i = none → i ≠ .rti → PairedShape i s s' (s.setPc target) (s'.setPc target)
  | call (target : Word) : setccDest i = none → i ≠ .rti →
      PairedShape i s s' (s.linkAndJump target) (s'.linkAndJump target)
  | store (a v : Word) : setccDest i = none → i ≠ .rti → PairedShape i s s' (s.storeWord a v) (s'.storeWord a v)
  | back : i = .rti → PairedShape i s s' s.returnFromInterrupt s'.returnFromInterrupt

/-- On two states that agree on the operands, and for BR on the branch condition, an instruction does the same
operation with the same operands. -/
theorem exec_paired {i : Instr} {s s' t : State} (hagree : OperandsAgree s s')
    (hbr : ∀ n z p off, i = .br n z p off → branchTaken n z p s'.flags = branchTaken n z p s.flags)
    (h : exec i s = .next t) : ∃ t', exec i s' = .next t' ∧ PairedShape i s s' t t' := by
  cases i
  case unknown => cases h
  case br n z p off =>
    cases h
    refine ⟨_, rfl, ?_⟩
    rw [hbr n z p off rfl, pcRelative_of_agree hagree, incPc_of_agree hagree]
    exact .jump _ rfl (by simp)
  case jmp b =>
    cases h
    refine ⟨_, rfl, ?_⟩
    rw [readReg_of_agree hagree]
    exact .jump _ rfl (by simp)
  case jsrr b =>
    cases h
    refine ⟨_, rfl, ?_⟩
    rw [callRegister_eq, callRegister_eq, incPc_of_agree hagree, readReg_of_agree hagree]
    exact .call _ rfl (by simp)
  case jsr | trap =>
    cases h
    refine ⟨_, rfl, ?_⟩
    simp only [pcRelative_of_agree hagree, trapEntry_of_agree hagree]
    exact .call _ rfl (by simp)
  case st | sti | str =>
    cases h
    refine ⟨_, rfl, ?_⟩
    simp only [pcRelative_of_agree hagree, indirect_of_agree hagree, baseOffset_of_agree hagree,
      readReg_of_agree hagree]
    exact .store _ _ rfl (by simp)
  case rti =>
    cases h
    exact ⟨_, rfl, .back rfl⟩
  all_goals
    cases h
    refine ⟨_, rfl, ?_⟩
    simp only [readReg_of_agree hagree, readMem_of_agree hagree, pcRelative_of_agree hagree,
      indirect_of_agree hagree, baseOffset_of_agree hagree]
    exact .result _ _ rfl (by simp)

/-- Other flags before an instruction stay other flags after it, unless the instruction sets them from its result. -/
theorem pairedShape_setFlags {i : Instr} {s t t' : State} {f : Flags} (h : PairedShape i s (s.setFlags f) t t') :
    t' = if setccDest i = none then t.setFlags f else t := by
  cases h with
  | result dr v hdest => rw [if_neg (by simp [hdest])]; rfl
  | jump target hdest => rw [if_pos hdest]; rfl
  | call target hdest => rw [if_pos hdest]; rfl
  | store a v hdest => rw [if_pos hdest]; rfl
  | back hrti => rw [if_pos (by rw [hrti]; rfl)]; rfl

/-- Another `PSR` before an instruction is the other `PSR` after it, unless the instruction is RTI, which pops one. -/
theorem pairedShape_setPsr {i : Instr} {s t t' : State} {x : Word} (h : PairedShape i s (s.setPsr x) t t') :
    t' = if i = .rti then t else t.setPsr x := by
  cases h with
  | result dr v hdest hi => rw [if_neg hi]; rfl
  | jump target hdest hi => rw [if_neg hi]; rfl
  | call target hdest hi => rw [if_neg hi]; rfl
  | store a v hdest hi => rw [if_neg hi]; rfl
  | back hi => rw [if_pos hi]; rfl

/-- Another swap stack pointer before an instruction is the other one after it. -/
theorem pairedShape_setSspSaved {i : Instr} {s t t' : State} {x : Word}
    (h : PairedShape i s (s.setSspSaved x) t t') : t' = t.setSspSaved x := by
  cases h <;> rfl

/-- The flags reach an instruction only through the branch condition of BR. -/
theorem exec_setFlags {i : Instr} {s t : State} {f : Flags} (h : exec i s = .next t)
    (hbr : ∀ n z p off, i = .br n z p off → branchTaken n z p f = branchTaken n z p s.flags) :
    exec i (s.setFlags f) = .next (if setccDest i = none then t.setFlags f else t) := by
  obtain ⟨t', hexec, hshape⟩ := exec_paired (operandsAgree_setFlags s f) hbr h
  rw [hexec, pairedShape_setFlags hshape]

/-- No instruction reads `PSR`: BR's condition is about the flags alone. -/
theorem exec_setPsr {i : Instr} {s t : State} (x : Word) (h : exec i s = .next t) :
    exec i (s.setPsr x) = .next (if i = .rti then t else t.setPsr x) := by
  obtain ⟨t', hexec, hshape⟩ := exec_paired (operandsAgree_setPsr s x) (fun _ _ _ _ _ => rfl) h
  rw [hexec, pairedShape_setPsr hshape]

/-- No instruction reads the swap stack pointer. -/
theorem exec_setSspSaved {i : Instr} {s t : State} (x : Word) (h : exec i s = .next t) :
    exec i (s.setSspSaved x) = .next (t.setSspSaved x) := by
  obtain ⟨t', hexec, hshape⟩ := exec_paired (operandsAgree_setSspSaved s x) (fun _ _ _ _ _ => rfl) h
  rw [hexec, pairedShape_setSspSaved hshape]

/-- Settles O9: an instruction that is not BR has no branch condition for the flags to reach. -/
theorem onlyBranchesReadTheFlags : Obligations.OnlyBranchesReadTheFlags := by
  refine ⟨fun i s t f h hnot => exec_setFlags h fun n z p off hi => absurd hi (hnot n z p off),
    fun n z p off s f t h => ⟨exec_keeps_flags h rfl, fun hsame => exec_setFlags h ?_⟩, interrupt_flags⟩
  intro n' z' p' off' hi
  cases hi
  exact hsame

/-- The reserved opcode stops with a record of the pc and the word there, and neither is `SSP_SAVED`. -/
theorem exec_unknown_setSspSaved (s : State) (x : Word) : exec .unknown (s.setSspSaved x) = exec .unknown s := rfl

/-- `interrupt` lowers the exchanged R6 by 2, modulo 2^16 (60_exceptions R204). -/
theorem interrupt_sp_isMod (v : Word) (s : State) :
    IsMod ((interrupt v s).readReg 6) ((s.sspSaved.toNat : Int) - 2) := by
  obtain ⟨hsp, -⟩ := takeInterrupt_spec s v
  unfold interrupt IsMod
  rw [hsp]
  bv_omega

/-- Settles O33: by instructions, the stop, `interrupt`, `load` and reset in turn. -/
theorem noInstructionTouchesTheSwapStackPointer : Obligations.NoInstructionTouchesTheSwapStackPointer := by
  refine ⟨fun i s t x h => ⟨nextShape_sspSaved (exec_next h), exec_setSspSaved x h⟩, exec_unknown_setSspSaved,
    fun v s => ⟨?_, interrupt_sp_isMod v s⟩, fun stream s => ?_, fun _ _ => rfl⟩
  · obtain ⟨-, hssp, -⟩ := takeInterrupt_spec s v
    exact hssp
  · obtain ⟨-, -, -, -, hssp⟩ := load_frame stream s
    exact hssp

/-- Settles O34: `interrupt` stores `PSR` in its second push, the word one below `SSP_SAVED`. -/
theorem noInstructionReadsPsr : Obligations.NoInstructionReadsPsr := by
  refine ⟨fun i s t x => exec_setPsr x, fun v s => ⟨interrupt_psr v s, ?_⟩, fun s t h => ?_⟩
  · rw [interrupt_readMem, if_pos rfl]
  · cases h
    obtain ⟨-, hpsr, -, -, -, hflags, -⟩ := returnFromInterrupt_spec s
    exact ⟨hpsr, hflags⟩

end Sys2Proof.Proofs

namespace Sys2Proof.Proofs

open Sys2Proof.Machine Sys2Proof.Safety Sys2Proof.Laws

/-! ## Reads after writes (20_memory R41, R50) -/

/-- Settles O35: the read-after-write law, and the fields that `writeMem` leaves alone. -/
theorem memoryReadsBackWhatWasWritten : Obligations.MemoryReadsBackWhatWasWritten := by
  refine fun s a v => ⟨readMem_writeMem_same s a v, fun b hb => ?_, fun r _ => readReg_writeMem s a v r,
    writeMem_pc s a v, writeMem_flags s a v, writeMem_psr s a v, writeMem_sspSaved s a v⟩
  exact readMem_writeMem_other s a b v (by simpa using hb)

/-- Two runs of writes, one after the other, are the run of both lists. -/
theorem writeAll_append (xs ys : List (Word × Word)) :
    ∀ s : State, writeAll (xs ++ ys) s = writeAll ys (writeAll xs s) := by
  induction xs with
  | nil => exact fun _ => rfl
  | cons x xs ih => exact fun s => ih (s.writeMem x.1 x.2)

/-- Writes to other addresses leave a word as it was. -/
theorem writeAll_readMem_of_forall_ne {a : Word} (ws : List (Word × Word)) :
    ∀ s : State, (∀ e ∈ ws, e.1 ≠ a) → (writeAll ws s).readMem a = s.readMem a := by
  induction ws with
  | nil => exact fun _ _ => rfl
  | cons e ws ih =>
    intro s hne
    obtain ⟨hhead, htail⟩ := List.forall_mem_cons.mp hne
    calc (writeAll (e :: ws) s).readMem a
      _ = (s.writeMem e.1 e.2).readMem a := ih (s.writeMem e.1 e.2) htail
      _ = s.readMem a := readMem_writeMem_other s e.1 a e.2 hhead.symm

/-- The most recent write to an address is what it reads as, from any state. -/
theorem writeAll_readMem_last (before : List (Word × Word)) {a : Word} (v : Word) {after : List (Word × Word)}
    (s : State) (hafter : ∀ e ∈ after, e.1 ≠ a) : (writeAll (before ++ (a, v) :: after) s).readMem a = v := by
  rw [writeAll_append]
  calc (writeAll after ((writeAll before s).writeMem a v)).readMem a
    _ = ((writeAll before s).writeMem a v).readMem a := writeAll_readMem_of_forall_ne after _ hafter
    _ = v := readMem_writeMem_same _ a v

/-- After reset every word reads as `MEM_INIT` gives it (10_state R30). -/
theorem resetWith_readMem (p : ResetParams) (a : Word) : (State.resetWith p).readMem a = p.memInit a :=
  read_ofFunction p.memInit a

/-- Settles O36: the last write to the address stands under those after it, and with none the reset word does. -/
theorem memoryReturnsTheMostRecentWrite : Obligations.MemoryReturnsTheMostRecentWrite :=
  fun p before a => ⟨fun v _ => writeAll_readMem_last before v (State.resetWith p),
    fun hnone => (writeAll_readMem_of_forall_ne before _ hnone).trans (resetWith_readMem p a)⟩

/-! ## A store and the next fetch (20_memory R52) -/

/-- Where the next instruction's word is the one stored, the next step runs the stored word. -/
theorem step_storeWord {s : State} {a : Word} (v : Word) (hpc : (s.storeWord a v).pc = a) :
    step (s.storeWord a v) = exec (decode v) (s.storeWord a v) := by
  have hfetch : (s.storeWord a v).fetch = v := by
    unfold State.fetch
    rw [hpc, storeWord_readMem, if_pos rfl]
  unfold step
  rw [hfetch]

/-- The PC-relative address of offset 0 is the next instruction's. -/
theorem pcRelative_zero (s : State) (n : Nat) : s.pcRelative (0 : BitVec n) = s.incPc := by
  simp [State.pcRelative, sext, BitVec.signExtend_eq_setWidth_of_msb_false]

/-- Settles O24: each of the three stores is one `storeWord`; ST with offset 0 stores to the next instruction. -/
theorem storedWordIsFetchedNext : Obligations.StoredWordIsFetchedNext := by
  refine ⟨fun sr off s t h hpc => ?_, fun sr off s t h hpc => ?_, fun sr baseR off s t h hpc => ?_,
    fun sr s => ⟨_, rfl, step_storeWord _ (pcRelative_zero s 9).symm⟩⟩
  all_goals
    cases h
    exact step_storeWord _ hpc

/-! ## The memory footprint of an instruction (20_memory R47) -/

/-- RTI pops the same two words from a memory that holds the same two words, and keeps that memory. -/
theorem returnFromInterrupt_withMem {s : State} {m : Memory}
    (hpc : s.readMem (s.readReg 6) = m.read (s.readReg 6))
    (hpsr : s.readMem (s.readReg 6 + 1) = m.read (s.readReg 6 + 1)) :
    { s with mem := m }.returnFromInterrupt = { s.returnFromInterrupt with mem := m } := by
  obtain ⟨pcRule, psrRule, -⟩ := returnFromInterrupt_spec s
  obtain ⟨pcRule', psrRule', -⟩ := returnFromInterrupt_spec { s with mem := m }
  have samePc := pcRule'.trans (hpc.symm.trans pcRule.symm)
  have samePsr := psrRule'.trans (hpsr.symm.trans psrRule.symm)
  calc { s with mem := m }.returnFromInterrupt
    _ = { s.returnFromInterrupt with
          pc := { s with mem := m }.returnFromInterrupt.pc
          psr := { s with mem := m }.returnFromInterrupt.psr
          mem := m } := rfl
    _ = { s.returnFromInterrupt with mem := m } := by rw [samePc, samePsr]

/-- The pointer of LDI and STI is the same in a memory that holds the same words where the instruction reads. -/
theorem indirect_withMem {i : Instr} {s : State} {m : Memory} {off : BitVec 9}
    (hread : ∀ a ∈ readsOf i s, s.readMem a = m.read a) (hptr : s.pcRelative off ∈ readsOf i s) :
    State.indirect { s with mem := m } off = s.indirect off :=
  (hread _ hptr).symm

/-- The next states of one instruction from a state `s` and from `s` with another memory `m`: the same but for
memory, which each keeps; or the same store in each. -/
inductive SameEffect (i : Instr) (s : State) (m : Memory) : State → State → Prop where
  | keepsMem (t : State) : writesOf i s = [] → SameEffect i s m t { t with mem := m }
  | store (a v : Word) : writesOf i s = [a] → SameEffect i s m (s.storeWord a v) ({ s with mem := m }.storeWord a v)

/-- Over another memory that holds the same words where the instruction reads, it does the same. -/
theorem exec_withMem {i : Instr} {s t : State} {m : Memory} (h : exec i s = .next t)
    (hread : ∀ a ∈ readsOf i s, s.readMem a = m.read a) :
    ∃ t', exec i { s with mem := m } = .next t' ∧ SameEffect i s m t t' := by
  cases i
  case unknown => cases h
  case st | str =>
    cases h
    exact ⟨_, rfl, .store _ _ rfl⟩
  case sti sr off =>
    cases h
    refine ⟨_, rfl, ?_⟩
    rw [indirect_withMem hread (by simp [readsOf])]
    exact .store _ _ rfl
  case ld dr off =>
    cases h
    rw [hread (s.pcRelative off) (by simp [readsOf])]
    exact ⟨_, rfl, .keepsMem _ rfl⟩
  case ldr dr baseR off =>
    cases h
    rw [hread (s.baseOffset baseR off) (by simp [readsOf])]
    exact ⟨_, rfl, .keepsMem _ rfl⟩
  case ldi dr off =>
    cases h
    refine ⟨_, rfl, ?_⟩
    rw [indirect_withMem hread (by simp [readsOf]), hread (s.indirect off) (by simp [readsOf, State.indirect])]
    exact .keepsMem _ rfl
  case trap vector =>
    cases h
    rw [show s.trapEntry vector = m.read (zext vector) from hread _ (by simp [readsOf])]
    exact ⟨_, rfl, .keepsMem _ rfl⟩
  case rti =>
    cases h
    refine ⟨_, rfl, ?_⟩
    rw [returnFromInterrupt_withMem (hread _ (by simp [readsOf])) (hread _ (by simp [readsOf]))]
    exact .keepsMem _ rfl
  all_goals
    cases h
    exact ⟨_, rfl, .keepsMem _ rfl⟩

/-- The addresses written are computed from the registers, the pc and, for STI, the pointer it reads. -/
theorem writesOf_withMem {i : Instr} {s : State} {m : Memory} (hread : ∀ a ∈ readsOf i s, s.readMem a = m.read a) :
    writesOf i { s with mem := m } = writesOf i s := by
  cases i
  case sti sr off => exact congrArg (fun a => [a]) (indirect_withMem hread (by simp [readsOf]))
  all_goals rfl

/-- The two next states differ in memory alone. -/
theorem sameEffect_but_mem {i : Instr} {s t t' : State} {m : Memory} (h : SameEffect i s m t t') :
    { t' with mem := t.mem } = t := by
  cases h <;> rfl

/-- Both next states hold the same word at every address written. -/
theorem sameEffect_readMem {i : Instr} {s t t' : State} {m : Memory} (h : SameEffect i s m t t') :
    ∀ a ∈ writesOf i s, t'.readMem a = t.readMem a := by
  intro b hb
  cases h with
  | keepsMem t hnone => simp [hnone] at hb
  | store a v hone =>
    obtain rfl : b = a := by simpa [hone] using hb
    rw [storeWord_readMem, storeWord_readMem, if_pos rfl, if_pos rfl]

/-- Settles O32: the same effect over both memories; each run keeps the words outside its own `writesOf`, which are
the same addresses. -/
theorem instructionsReadOnlyTheirFootprint : Obligations.InstructionsReadOnlyTheirFootprint := by
  intro i s m t h hread
  obtain ⟨t', hexec, heffect⟩ := exec_withMem h hread
  have hwrites := writesOf_withMem hread
  refine ⟨t', hexec, sameEffect_but_mem heffect, hwrites, sameEffect_readMem heffect, fun a ha => ⟨?_, ?_⟩⟩
  · exact nextShape_memKept (exec_next hexec) a (by rwa [hwrites])
  · exact nextShape_memKept (exec_next h) a ha

end Sys2Proof.Proofs

namespace Sys2Proof.Proofs

open Sys2Proof.Machine Sys2Proof.Safety Sys2Proof.Laws

/-! ## Fields of a word built from fields -/

/-- A register field is the three bits it is read from. -/
theorem extract_placeReg_same (r : RegIdx) {o : Nat} (ho : o ≤ 13) :
    (placeReg r o).extractLsb' o 3 = BitVec.ofFin (w := 3) r := by
  apply extract_eq
  intro k hk
  simp [-BitVec.getLsbD_eq_getElem, show o + k < 16 by omega, hk]

/-- A register field leaves the fields beside it empty. -/
theorem extract_placeReg_disjoint (r : RegIdx) {o lo n : Nat} (h : o + 3 ≤ lo ∨ lo + n ≤ o) :
    (placeReg r o).extractLsb' lo n = 0 := by
  apply extract_eq
  intro k hk
  simp only [getLsbD_placeReg, BitVec.ofNat_eq_ofNat, BitVec.getLsbD_zero, Bool.and_eq_false_iff,
    decide_eq_false_iff_not]
  omega

/-- A placed bit leaves the fields beside it empty. -/
theorem extract_placeBit_disjoint (b : Bool) {o lo n : Nat} (h : o < lo ∨ lo + n ≤ o) :
    (placeBit b o).extractLsb' lo n = 0 := by
  apply extract_eq
  intro k hk
  simp only [getLsbD_placeBit, BitVec.ofNat_eq_ofNat, BitVec.getLsbD_zero, Bool.and_eq_false_iff,
    decide_eq_false_iff_not]
  omega

/-- An offset, immediate or vector, placed at bit 0, is the low field of its width. -/
theorem extract_setWidth_same {n : Nat} (hn : n ≤ 16) (f : BitVec n) : (f.setWidth 16).extractLsb' 0 n = f := by
  apply extract_eq
  intro k hk
  simp [show k < 16 by omega]

/-- An offset, immediate or vector leaves the fields above it empty. -/
theorem extract_setWidth_disjoint {n lo m : Nat} (h : n ≤ lo) (f : BitVec n) :
    (f.setWidth 16).extractLsb' lo m = 0 := by
  apply extract_eq
  intro k hk
  simp [show n ≤ lo + k by omega]

/-- The opcode leaves the fields below it empty. -/
theorem extract_opcodeBits_disjoint (op : Operation) {lo n : Nat} (h : lo + n ≤ 12) :
    (opcodeBits op).extractLsb' lo n = 0 := by
  apply extract_eq
  intro k hk
  simp [getLsbD_opcodeBits, show ¬ 12 ≤ lo + k by omega]

/-- Decoding under its own operation undoes the placing of the operands. -/
theorem decodeAs_operandBits {i : Instr} {op : Operation} (h : i.operation = some op) :
    decodeAs (some op) (opcodeBits op ||| operandBits i) = i := by
  cases i
  case unknown => cases h
  all_goals
    cases h
    simp [-BitVec.getLsbD_eq_getElem, decodeAs, operandBits, regField, BitVec.extractLsb'_or, extract_placeReg_same,
      extract_placeReg_disjoint, extract_placeBit_disjoint, extract_setWidth_same, extract_setWidth_disjoint,
      extract_opcodeBits_disjoint, getLsbD_opcodeBits]

/-- The decoder undoes the encoder, on every instruction that has a word. -/
theorem decode_of_encode {i : Instr} {w : Word} (h : encode i = some w) : decode w = i := by
  obtain ⟨op, hop, hw⟩ := encode_eq_some h
  unfold decode
  rw [EncodedOpcode.of_encode h, hop, hw]
  exact decodeAs_operandBits hop

/-- UNKNOWN is the one instruction that is not well-formed. -/
theorem wellFormed_eq_false_iff (i : Instr) : i.wellFormed = false ↔ i = .unknown := by
  cases i <;> simp [Instr.wellFormed]

/-- Settles O3: a well-formed instruction has a word, and each field of that word reads back its operand. -/
theorem decodeOfEncodeIsTheInstruction : Obligations.DecodeOfEncodeIsTheInstruction := by
  refine fun i => ⟨fun hwf => ?_, fun hwf => ?_⟩
  · rw [← encode_isSome] at hwf
    obtain ⟨w, hw⟩ := Option.isSome_iff_exists.mp hwf
    exact ⟨w, hw, decode_of_encode hw⟩
  · obtain rfl := (wellFormed_eq_false_iff i).mp hwf
    exact ⟨rfl, rfl⟩

/-! ## The opcode field (30_encoding R62, R65) -/

/-- The table gives an operation for its own code only. -/
theorem operationIn_eq_some_iff (c : BitVec 4) (op : Operation) :
    operationIn opcodes c = some op ↔ c = codeIn opcodes op := by
  refine ⟨fun h => ?_, fun h => by rw [h, operationIn_codeIn]⟩
  cases op <;> revert c <;> decide

/-- The table lacks the code 1101 only. -/
theorem operationIn_eq_none_iff (c : BitVec 4) : operationIn opcodes c = none ↔ c = 0b1101 := by
  revert c
  decide

/-- The opcode field is what stands above the low 12 bits. -/
theorem opcodeField_eq_iff (w : Word) (c : BitVec 4) : w.extractLsb' 12 4 = c ↔ w.toNat / 4096 = c.toNat := by
  rw [← BitVec.toNat_inj, BitVec.extractLsb'_toNat, Nat.shiftRight_eq_div_pow]
  have := w.isLt
  omega

/-- A word decodes to an operation exactly when its opcode field is the operation's code. -/
theorem opcodeDecode_eq_some_iff (w : Word) (op : Operation) :
    opcodeDecode w = some op ↔ w.toNat / 4096 = (codeIn opcodes op).toNat := by
  rw [opcodeDecode, operationIn_eq_some_iff, opcodeField_eq_iff]

/-- A word decodes to no operation exactly when its opcode field is 1101. -/
theorem opcodeDecode_eq_none_iff (w : Word) : opcodeDecode w = none ↔ w.toNat / 4096 = 13 := by
  rw [opcodeDecode, operationIn_eq_none_iff, opcodeField_eq_iff]
  rfl

/-- The placed opcode is the code times `2 ^ 12`. -/
theorem opcodeBits_eq_wordOf (op : Operation) : opcodeBits op = wordOf (4096 * (codeIn opcodes op).toNat) := by
  cases op <;> rfl

/-- A number below `2 ^ 12` has no bit in the opcode field. -/
theorem getLsbD_wordOf_high {f k : Nat} (hf : f ≤ 0x0FFF) (hk : 12 ≤ k) : (wordOf f).getLsbD k = false := by
  have hlt : f < 2 ^ k := lt_of_lt_of_le (show f < 2 ^ 12 by omega) (Nat.pow_le_pow_right Nat.two_pos hk)
  rw [wordOf, BitVec.getLsbD_ofNat, Nat.testBit_lt_two_pow hlt, Bool.and_false]

/-- Settles O6: an operation has the code that the table gives it, and no other operation has it. -/
theorem opcodeTableIsABijection : Obligations.OpcodeTableIsABijection := by
  refine ⟨fun op c hmem => ?_, opcodeDecode_eq_none_iff, rfl, fun op f hf => ?_⟩
  · have hc : c = (codeIn opcodes op).toNat := by cases op <;> simpa [opcodes, codeIn] using hmem
    rw [hc]
    exact ⟨congrArg some (opcodeBits_eq_wordOf op), fun w => opcodeDecode_eq_some_iff w op⟩
  · exact ⟨opcodeBits op, rfl, opcodeDecode_encoded op _ fun _ hk => getLsbD_wordOf_high hf hk⟩

/-! ## Encoding what was decoded (30_encoding R68) -/

/-- A field, read and placed again, is the word's own bits. -/
theorem extract_shiftLeft (w : Word) (o n : Nat) :
    (w.extractLsb' o n).setWidth 16 <<< o = w &&& BitVec.ofNat 16 (2 ^ n - 1) <<< o := by
  apply BitVec.eq_of_getLsbD_eq
  intro k hk
  simp only [BitVec.getLsbD_shiftLeft, BitVec.getLsbD_setWidth, BitVec.getLsbD_extractLsb', BitVec.getLsbD_and,
    BitVec.getLsbD_ofNat, Nat.testBit_two_pow_sub_one]
  by_cases hko : k < o
  · simp [hko]
  · simp [hk, hko, show k - o < 16 by omega, show o + (k - o) = k by omega, Bool.and_comm]

/-- A register field, read and placed again, is the word's own three bits. -/
theorem placeReg_regField (w : Word) (o : Nat) : placeReg (regField w o) o = w &&& 7#16 <<< o := by
  rw [← show BitVec.ofNat 16 (2 ^ 3 - 1) = 7#16 from rfl, ← extract_shiftLeft, ← BitVec.ofNat_toNat]
  rfl

/-- An offset, immediate or vector, read and placed again, is the word's own low bits. -/
theorem setWidth_extract (w : Word) (n : Nat) :
    (w.extractLsb' 0 n).setWidth 16 = w &&& BitVec.ofNat 16 (2 ^ n - 1) := by
  simpa using extract_shiftLeft w 0 n

/-- A selector or condition bit, read and placed again, is the word's own bit. -/
theorem placeBit_getLsbD (w : Word) (o : Nat) : placeBit (w.getLsbD o) o = w &&& 1#16 <<< o := by
  have hone : w.extractLsb' o 1 = BitVec.ofBool (w.getLsbD o) := by
    apply extract_eq
    intro k hk
    simp [Nat.lt_one_iff.mp hk]
  rw [← show BitVec.ofNat 16 (2 ^ 1 - 1) = 1#16 from rfl, ← extract_shiftLeft, hone]
  cases w.getLsbD o <;> rfl

/-- The opcode, read and placed again, is the word's own top four bits. -/
theorem opcodeBits_of_opcodeDecode {w : Word} {op : Operation} (h : opcodeDecode w = some op) :
    opcodeBits op = w &&& 0xF000 := by
  have hfield : w.extractLsb' 12 4 = codeIn opcodes op := (operationIn_eq_some_iff _ _).mp h
  rw [opcodeBits, ← hfield]
  exact extract_shiftLeft w 12 4

/-- A clear bit may be added to a mask. -/
theorem and_eq_and_of_clear {w : Word} {o : Nat} (h : w.getLsbD o = false) (m : Word) :
    w &&& m = w &&& (m ||| 1#16 <<< o) := by
  have hbit := placeBit_getLsbD w o
  rw [BitVec.and_or_distrib_left, ← hbit, h]
  simp [placeBit]

/-- The operands that a word decodes to, placed again, are its low 12 bits less the ignored ones. -/
theorem operandBits_decodeAs (op : Operation) (w : Word) :
    operandBits (decodeAs (some op) w) = w &&& (0x0FFF &&& ~~~ignoredMask (decodeAs (some op) w)) := by
  cases op
  case add | and =>
    have hbit := placeBit_getLsbD w 5
    cases hsel : w.getLsbD 5
    · simpa [-BitVec.getLsbD_eq_getElem, decodeAs, hsel, operandBits, ignoredMask, placeReg_regField,
        ← BitVec.and_or_distrib_left] using and_eq_and_of_clear hsel 0x0FC7
    · rw [hsel] at hbit
      simp [-BitVec.getLsbD_eq_getElem, decodeAs, hsel, operandBits, ignoredMask, placeReg_regField, hbit,
        setWidth_extract, ← BitVec.and_or_distrib_left]
  case jsr =>
    have hbit := placeBit_getLsbD w 11
    cases hsel : w.getLsbD 11
    · simpa [-BitVec.getLsbD_eq_getElem, decodeAs, hsel, operandBits, ignoredMask, placeReg_regField] using
        and_eq_and_of_clear hsel 0x01C0
    · rw [hsel] at hbit
      simp [-BitVec.getLsbD_eq_getElem, decodeAs, hsel, operandBits, ignoredMask, hbit, setWidth_extract,
        ← BitVec.and_or_distrib_left]
  all_goals
    simp [-BitVec.getLsbD_eq_getElem, decodeAs, operandBits, ignoredMask, placeReg_regField, placeBit_getLsbD,
      setWidth_extract, ← BitVec.and_or_distrib_left]

/-- The decoder takes an instruction's form from the operands, its operation from the opcode alone (R61). -/
theorem operation_decodeAs (op : Option Operation) (w : Word) : (decodeAs op w).operation = op := by
  cases op with
  | none => rfl
  | some op =>
    cases op
    case add | and | jsr =>
      simp only [decodeAs]
      split <;> rfl
    all_goals rfl

/-- The ignored bits are operand bits: the mask keeps clear of the opcode field. -/
theorem opcode_or_operands_eq_read (i : Instr) :
    (0xF000 : Word) ||| 0x0FFF &&& ~~~ignoredMask i = ~~~ignoredMask i := by
  cases i <;> simp only [ignoredMask] <;> decide

/-- Encoding what a word decodes to gives the word back with its ignored bits cleared, where it has an operation. -/
theorem encode_decode {w : Word} (h : opcodeDecode w ≠ none) :
    encode (decode w) = some (w &&& ~~~ignoredMask (decode w)) := by
  obtain ⟨op, hop⟩ := Option.ne_none_iff_exists'.mp h
  have hdecode : decode w = decodeAs (some op) w := by rw [decode, hop]
  rw [hdecode, encode, operation_decodeAs, Option.map_some, operandBits_decodeAs, opcodeBits_of_opcodeDecode hop,
    ← BitVec.and_or_distrib_left, opcode_or_operands_eq_read]

/-- Settles O4: the one opcode without an operation is 1101. -/
theorem encodeOfDecodeClearsIgnoredBits : Obligations.EncodeOfDecodeClearsIgnoredBits :=
  fun w hw => encode_decode (mt (opcodeDecode_eq_none_iff w).mp hw)

/-! ## The opcode map as match and mask (30_encoding R75) -/

/-- What a mask over the opcode and one selector bit leaves of a word: the opcode's code and that bit. -/
theorem and_opcode_selector {w : Word} {op : Operation} (h : opcodeDecode w = some op) (o : Nat) :
    w &&& (0xF000 ||| 1#16 <<< o) = opcodeBits op ||| placeBit (w.getLsbD o) o := by
  rw [opcodeBits_of_opcodeDecode h, placeBit_getLsbD, BitVec.and_or_distrib_left]

/-- The opcode field of a word without an operation is 1101. -/
theorem and_opcode_of_none {w : Word} (h : opcodeDecode w = none) : w &&& 0xF000 = 0xD000 := by
  have hfield : w.extractLsb' 12 4 = 0b1101 := (operationIn_eq_none_iff _).mp h
  have hbits := extract_shiftLeft w 12 4
  rw [hfield] at hbits
  exact hbits.symm

/-- Every word matches the row that bears the mnemonic of what it decodes to. -/
theorem exists_row_of_decode (w : Word) :
    ∃ row ∈ opcodeRows, row.1 = (decode w).mnemonic ∧ rowMatches w row = true := by
  unfold decode
  cases hop : opcodeDecode w with
  | none => simpa [opcodeRows, rowMatches, decodeAs, Instr.mnemonic] using and_opcode_of_none hop
  | some op =>
    cases op
    case add | and =>
      have hbits := and_opcode_selector hop 5
      cases hsel : w.getLsbD 5 <;> rw [hsel] at hbits <;>
        simpa [-BitVec.getLsbD_eq_getElem, hsel, opcodeRows, rowMatches, decodeAs, Instr.mnemonic] using
          hbits.trans (by decide)
    case jsr =>
      have hbits := and_opcode_selector hop 11
      cases hsel : w.getLsbD 11 <;> rw [hsel] at hbits <;>
        simpa [-BitVec.getLsbD_eq_getElem, hsel, opcodeRows, rowMatches, decodeAs, Instr.mnemonic] using
          hbits.trans (by decide)
    all_goals
      simpa [opcodeRows, rowMatches, decodeAs, Instr.mnemonic] using
        (opcodeBits_of_opcodeDecode hop).symm.trans (by decide)

/-- No word matches two different rows: where both masks look, two rows ask for different bits. -/
theorem row_unique {w : Word} {r r' : String × Word × Word} (hr : r ∈ opcodeRows) (hr' : r' ∈ opcodeRows)
    (h : rowMatches w r = true) (h' : rowMatches w r' = true) : r = r' := by
  have hdiffer : ∀ a ∈ opcodeRows, ∀ b ∈ opcodeRows, a.2.2 &&& b.2.1 = b.2.2 &&& a.2.1 → a = b := by decide
  apply hdiffer r hr r' hr'
  rw [rowMatches, beq_iff_eq] at h h'
  rw [← h, ← h', BitVec.and_assoc, BitVec.and_assoc, BitVec.and_comm r.2.1]

/-- A row that matches a word bears the mnemonic of what it decodes to. -/
theorem mnemonic_of_rowMatches {w : Word} {row : String × Word × Word} (hrow : row ∈ opcodeRows)
    (h : rowMatches w row = true) : (decode w).mnemonic = row.1 := by
  obtain ⟨row', hrow', hname, hmatch⟩ := exists_row_of_decode w
  rw [row_unique hrow hrow' h hmatch, hname]

/-- Settles O2: the decoder's row matches, and no other row does beside it. -/
theorem exactlyOneOpcodeRowMatchesEachWord : Obligations.ExactlyOneOpcodeRowMatchesEachWord := by
  refine fun w => ⟨?_, fun _ => mnemonic_of_rowMatches⟩
  obtain ⟨row, hrow, -, hmatch⟩ := exists_row_of_decode w
  have honly : ∀ r ∈ opcodeRows, rowMatches w r = (r == row) := by
    intro r hr
    rw [Bool.eq_iff_iff, beq_iff_eq]
    exact ⟨fun h => row_unique hr hrow h hmatch, fun h => h ▸ hmatch⟩
  rw [List.filter_congr honly, ← List.countP_eq_length_filter]
  exact List.count_eq_one_of_mem (by decide) hrow

/-! ## Ignored bits (30_encoding R68, decision D3) -/

/-- The encoder writes 0 in every bit that the format does not read. -/
theorem encode_and_ignoredMask {i : Instr} {w : Word} (h : encode i = some w) : w &&& ignoredMask i = 0 := by
  obtain ⟨op, hop, -⟩ := encode_eq_some h
  have hsome : opcodeDecode w ≠ none := by rw [EncodedOpcode.of_encode h, hop]; exact Option.some_ne_none op
  have hclear := encode_decode hsome
  rw [decode_of_encode h, h, Option.some_inj] at hclear
  rw [hclear, BitVec.and_assoc, BitVec.and_comm (~~~_), BitVec.and_not_self]
  exact BitVec.and_zero

/-- Clearing the ignored bits of a word that has an operation does not change what it decodes to. -/
theorem decode_clearIgnored {w : Word} (h : opcodeDecode w ≠ none) :
    decode (w &&& ~~~ignoredMask (decode w)) = decode w :=
  decode_of_encode (encode_decode h)

/-- The rows of the opcode map whose format ignores bits, with those bits (R68). -/
def ignoringRows : List ((String × Word × Word) × Word) :=
  [(("ADD__register", 0xF020, 0x1000), 0x0018), (("AND__register", 0xF020, 0x5000), 0x0018),
   (("NOT", 0xF000, 0x9000), 0x003F), (("JMP", 0xF000, 0xC000), 0x0E3F), (("JSRR", 0xF800, 0x4000), 0x063F),
   (("TRAP", 0xF000, 0xF000), 0x0F00), (("RTI", 0xF000, 0x8000), 0x0FFF)]

/-- They are rows of the opcode map, of opcodes in use, and the ignored bits are none of those that the row fixes. -/
theorem ignoringRows_spec :
    ∀ r ∈ ignoringRows, r.1 ∈ opcodeRows ∧ r.1.1 ≠ "UNKNOWN__reserved" ∧ r.2 &&& r.1.2.1 = 0#16 := by
  decide

/-- The bits listed for a row are those that its instructions do not hold. -/
theorem ignoredMask_of_mnemonic (i : Instr) : ∀ r ∈ ignoringRows, i.mnemonic = r.1.1 → ignoredMask i = r.2 := by
  cases i <;> simp [ignoringRows, Instr.mnemonic, ignoredMask]

/-- A word without an operation decodes to the reserved row's instruction. -/
theorem mnemonic_of_opcodeDecode_none {w : Word} (h : opcodeDecode w = none) :
    (decode w).mnemonic = "UNKNOWN__reserved" := by
  rw [decode, h]
  rfl

/-- A word that matches an ignoring row decodes as with the row's ignored bits cleared. -/
theorem decode_clear_of_rowMatches {r : (String × Word × Word) × Word} (hr : r ∈ ignoringRows) {w : Word}
    (h : rowMatches w r.1 = true) : decode (w &&& ~~~r.2) = decode w := by
  obtain ⟨hrow, hused, -⟩ := ignoringRows_spec r hr
  have hname := mnemonic_of_rowMatches hrow h
  rw [← ignoredMask_of_mnemonic (decode w) r hr hname]
  exact decode_clearIgnored fun hnone => hused (hname ▸ mnemonic_of_opcodeDecode_none hnone)

/-- Flipping bits under one mask is not seen under a mask disjoint from it. -/
theorem xor_and_of_disjoint (w x : Word) {m k : Word} (h : m &&& k = 0#16) : (w ^^^ (x &&& m)) &&& k = w &&& k := by
  apply BitVec.eq_of_getLsbD_eq
  intro j _
  have hj : (m.getLsbD j && k.getLsbD j) = false := by rw [← BitVec.getLsbD_and, h, BitVec.getLsbD_zero]
  rw [BitVec.getLsbD_and, BitVec.getLsbD_xor, BitVec.getLsbD_and, Bool.and_xor_distrib_right, Bool.and_assoc, hj,
    Bool.and_false, Bool.xor_false, BitVec.getLsbD_and]

/-- Flipping ignored bits of a word that matches an ignoring row does not change what it decodes to. -/
theorem decode_xor_ignored {r : (String × Word × Word) × Word} (hr : r ∈ ignoringRows) {w : Word} (x : Word)
    (h : rowMatches w r.1 = true) : decode (w ^^^ (x &&& r.2)) = decode w := by
  obtain ⟨-, -, hdisjoint⟩ := ignoringRows_spec r hr
  have hstill : rowMatches (w ^^^ (x &&& r.2)) r.1 = true := by
    rw [rowMatches, xor_and_of_disjoint w x hdisjoint]
    exact h
  rw [← decode_clear_of_rowMatches hr h, ← decode_clear_of_rowMatches hr hstill,
    xor_and_of_disjoint w x (BitVec.and_not_self r.2)]

/-- The same for a row written out, in the form of the statement. -/
theorem decode_xor_of_mem {name : String} {mask bits m : Word} (hr : ((name, mask, bits), m) ∈ ignoringRows) :
    ∀ w x : Word, w &&& mask = bits → decode (w ^^^ (x &&& m)) = decode w :=
  fun _ x h => decode_xor_ignored hr x (beq_iff_eq.mpr h)

/-- Settles O5: each format through its row of the opcode map, and the encoder through the round trip. -/
theorem ignoredBitsDoNotMatter : Obligations.IgnoredBitsDoNotMatter :=
  ⟨decode_xor_of_mem (name := "ADD__register") (by decide), decode_xor_of_mem (name := "AND__register") (by decide),
    decode_xor_of_mem (name := "NOT") (by decide), decode_xor_of_mem (name := "JMP") (by decide),
    decode_xor_of_mem (name := "JSRR") (by decide), decode_xor_of_mem (name := "TRAP") (by decide),
    decode_xor_of_mem (name := "RTI") (by decide), fun _ _ _ _ => encode_and_ignoredMask,
    fun _ _ _ _ => encode_and_ignoredMask, fun _ _ _ => encode_and_ignoredMask, fun _ _ => encode_and_ignoredMask,
    fun _ _ => encode_and_ignoredMask, fun _ _ => encode_and_ignoredMask, rfl⟩

/-! ## The spec's example words (95_test_vectors L2) -/

/-- Settles O1: each word but the last is an encoding, and decodes to what it encodes; the last is of the reserved
opcode. -/
theorem specExampleWordsDecode : Obligations.SpecExampleWordsDecode := by
  refine ⟨?_, ?_, ?_, ?_, ?_, ?_, ?_, ?_, ?_, ?_, ?_, ?_, ?_, ?_, ?_, ?_, ?_, ?unknown⟩
  case unknown => decide
  all_goals exact decode_of_encode (by decide)

end Sys2Proof.Proofs

namespace Sys2Proof.Proofs

open Sys2Proof.Machine Sys2Proof.Safety Sys2Proof.Laws

/-! ## The condition codes (40_fetch_decode R104) -/

/-- Zero sets Z alone. -/
theorem setcc_zero : setcc 0x0000 = ⟨false, true, false⟩ := rfl

/-- A set sign bit sets N alone. -/
theorem setcc_of_signBit {v : Word} (hne : v ≠ 0x0000) (hsign : v.getLsbD 15 = true) :
    setcc v = ⟨true, false, false⟩ := by
  rw [setcc, if_neg hne, if_pos hsign]

/-- A clear sign bit, on a value that is not zero, sets P alone. -/
theorem setcc_of_signBit_clear {v : Word} (hne : v ≠ 0x0000) (hsign : v.getLsbD 15 = false) :
    setcc v = ⟨false, false, true⟩ := by
  rw [setcc, if_neg hne, if_neg (Bool.eq_false_iff.mp hsign)]

/-- The next state of an operation with a `setcc` destination is the one that writes a result there. -/
theorem nextShape_writeResult {i : Instr} {s t : State} {dr : RegIdx} (h : NextShape i s t)
    (hdest : setccDest i = some dr) : ∃ v, t = s.writeResult dr v := by
  cases h with
  | result dr' v hdest' =>
    obtain rfl : dr' = dr := Option.some.inj (hdest'.symm.trans hdest)
    exact ⟨v, rfl⟩
  | jump target hnone => simp [hnone] at hdest
  | call target hnone => simp [hnone] at hdest
  | store a v hnone => simp [hnone] at hdest
  | back hrti => simp [hrti, setccDest] at hdest

/-- Each of the seven operations sets the flags from the value that it leaves in `x[dr]`. -/
theorem exec_setcc {i : Instr} {s t : State} {dr : RegIdx} (h : exec i s = .next t)
    (hdest : setccDest i = some dr) : t.flags = setcc (t.readReg dr) ∧ t.psr = s.psr := by
  obtain ⟨v, rfl⟩ := nextShape_writeResult (exec_next h) hdest
  rw [writeResult_flags, writeResult_readReg, if_pos rfl, writeResult_psr]
  exact ⟨rfl, rfl⟩

/-- Settles O8: the three values of `setcc`, then the operations with a destination, those without, and `interrupt`. -/
theorem setccFollowsTheSignedResult : Obligations.SetccFollowsTheSignedResult :=
  ⟨fun _ hzero => hzero ▸ setcc_zero, fun _ => setcc_of_signBit, fun _ => setcc_of_signBit_clear,
    fun _ _ _ _ => exec_setcc, fun _ _ _ => exec_keeps_flags, interrupt_flags⟩

/-! ## The reserved opcode (40_fetch_decode R103, decision D9) -/

/-- Exactly the words with the reserved opcode decode to UNKNOWN. -/
theorem decode_eq_unknown_iff (w : Word) : decode w = .unknown ↔ w.toNat / 4096 = 13 := by
  rw [← opcodeDecode_eq_none_iff]
  refine ⟨fun h => ?_, fun h => ?_⟩
  · rw [← operation_decodeAs (opcodeDecode w) w, ← decode, h]
    rfl
  · rw [decode, h]
    rfl

/-- A word written out with the reserved opcode has it, whatever its low 12 bits. -/
theorem reservedWord_opcode (ignored : Fin 4096) : (wordOf (0xD000 + ignored.val)).toNat / 4096 = 13 := by
  have := ignored.isLt
  rw [wordOf, BitVec.toNat_ofNat]
  omega

/-- On a word with the reserved opcode the host's step reports `Unrecognized` and changes nothing. -/
theorem hostStep_of_reserved (order : LinkOrder) {s : State} (h : (s.readMem s.pc).toNat / 4096 = 13) :
    hostStep order s = (.unrecognized, s) := by
  rcases hostStep_cases order s with ⟨-, hstop⟩ | ⟨hknown, -⟩
  · exact hstop
  · exact absurd ((decode_eq_unknown_iff _).mpr h) hknown

/-- Settles O27: the state is a fixed point of the host's step, so every number of steps keeps it. -/
theorem reservedOpcodeIsUnrecognizedAndChangesNothing :
    Obligations.ReservedOpcodeIsUnrecognizedAndChangesNothing := by
  refine ⟨fun ignored => (decode_eq_unknown_iff _).mpr (reservedWord_opcode ignored), fun _ => rfl,
    fun order s h => ?_⟩
  have hstop := hostStep_of_reserved order h
  exact ⟨hstop, Function.iterate_fixed (congrArg Prod.snd hstop)⟩

/-! ## Sums modulo 2^16 (00_scope R13) -/

/-- A word is its own number. -/
theorem isMod_toNat (w : Word) : IsMod w (w.toNat : Int) := by
  unfold IsMod
  omega

/-- The sum of two words is the sum of their numbers, modulo 2^16. -/
theorem isMod_add {a b : Word} {x y : Int} (ha : IsMod a x) (hb : IsMod b y) : IsMod (a + b) (x + y) := by
  unfold IsMod at *
  rw [BitVec.toNat_add]
  omega

/-- A sign-extended field is the field's signed number. -/
theorem isMod_sext {n : Nat} (f : BitVec n) : IsMod (sext f) f.toInt := by
  unfold IsMod sext BitVec.signExtend
  rw [BitVec.toNat_ofInt]
  omega

/-- The default next pc. -/
theorem isMod_incPc (s : State) : IsMod s.incPc ((s.pc.toNat : Int) + 1) :=
  isMod_add (isMod_toNat s.pc) (isMod_toNat 1)

/-- The PC-relative address (30_encoding R69). -/
theorem isMod_pcRelative (s : State) {n : Nat} (off : BitVec n) :
    IsMod (s.pcRelative off) ((s.pc.toNat : Int) + 1 + off.toInt) :=
  isMod_add (isMod_incPc s) (isMod_sext off)

/-- The base + offset address (43_load R142). -/
theorem isMod_baseOffset (s : State) (baseR : RegIdx) (off : BitVec 6) :
    IsMod (s.baseOffset baseR off) (((s.readReg baseR).toNat : Int) + off.toInt) :=
  isMod_add (isMod_toNat _) (isMod_sext off)

/-! ## The reported read address (40_fetch_decode R106, decision D8) -/

/-- An operation other than the three loads reports no address. -/
theorem reportedRead_eq_none {i : Instr} (s : State) (hld : ∀ dr off, i ≠ .ld dr off)
    (hldi : ∀ dr off, i ≠ .ldi dr off) (hldr : ∀ dr baseR off, i ≠ .ldr dr baseR off) : reportedRead i s = none := by
  cases i
  case ld dr off => exact absurd rfl (hld dr off)
  case ldi dr off => exact absurd rfl (hldi dr off)
  case ldr dr baseR off => exact absurd rfl (hldr dr baseR off)
  all_goals rfl

/-- Settles O30: each load reports the address it computes, LDI the word it finds there. -/
theorem onlyLoadsReportAReadAddress : Obligations.OnlyLoadsReportAReadAddress :=
  ⟨fun _ off s => ⟨_, rfl, isMod_pcRelative s off⟩, fun _ off s => ⟨_, rfl, isMod_pcRelative s off⟩,
    fun _ baseR off s => ⟨_, rfl, isMod_baseOffset s baseR off⟩, fun _ s => reportedRead_eq_none s⟩

/-! ## The step (40_fetch_decode R100 to R102) -/

/-- The host's step applies a well-formed instruction, in either order, and reports its read address. -/
theorem hostStep_of_wellFormed (order : LinkOrder) {s : State} (hwf : (decode s.fetch).wellFormed = true) :
    ∃ t, stepIn order s = .next t ∧ hostStep order s = (.applied (reportedRead (decode s.fetch) s), t) := by
  rcases hostStep_cases order s with ⟨hunknown, -⟩ | ⟨-, happlied⟩
  · rw [(wellFormed_eq_false_iff _).mpr hunknown] at hwf
    cases hwf
  · exact happlied

/-- Settles O28: the word at the pc is the fetched one, and `step` takes the model's order. -/
theorem stepRunsTheDecodedInstruction : Obligations.StepRunsTheDecodedInstruction := by
  rintro s _ rfl
  exact ⟨rfl, (stepIn_jsrrLinkOrder s).symm, fun order => ⟨rfl, hostStep_of_wellFormed order⟩⟩

end Sys2Proof.Proofs

namespace Sys2Proof.Proofs

open Sys2Proof.Machine Sys2Proof.Safety Sys2Proof.Laws

/-! ## Fields of a word written out as a number (30_encoding R67) -/

/-- The opcode of a number's word is the number's part above the low 12 bits. -/
theorem decode_wordOf {n : Nat} {op : Operation} (h : n / 4096 = (codeIn opcodes op).toNat) :
    decode (wordOf n) = decodeAs (some op) (wordOf n) := by
  have hcode : (codeIn opcodes op).toNat < 16 := (codeIn opcodes op).isLt
  have hop : opcodeDecode (wordOf n) = some op := by
    rw [opcodeDecode_eq_some_iff, wordOf, BitVec.toNat_ofNat]
    omega
  rw [decode, hop]

/-- A field of a number's word holds the digit of the number at that place. -/
theorem extract_wordOf {n lo m : Nat} {f : BitVec m} (hfits : lo + m ≤ 16) (h : n / 2 ^ lo % 2 ^ m = f.toNat) :
    (wordOf n).extractLsb' lo m = f := by
  apply extract_eq
  intro k hk
  rw [wordOf, BitVec.getLsbD_ofNat, ← BitVec.testBit_toNat, ← h, Nat.testBit_mod_two_pow, Nat.testBit_div_two_pow,
    decide_eq_true hk, decide_eq_true (show lo + k < 16 by omega), Nat.add_comm]

/-- A register field of a number's word holds the octal digit of the number at that place. -/
theorem regField_wordOf {n lo : Nat} {r : RegIdx} (hfits : lo + 3 ≤ 16) (h : n / 2 ^ lo % 8 = r.val) :
    regField (wordOf n) lo = r := by
  rw [regField, extract_wordOf (f := BitVec.ofFin (w := 3) r) hfits h]

/-- A bit of a number's word is the parity of the number shifted down to it. -/
theorem getLsbD_wordOf {n k : Nat} (hk : k < 16) : (wordOf n).getLsbD k = decide (n / 2 ^ k % 2 = 1) := by
  rw [wordOf, BitVec.getLsbD_ofNat, decide_eq_true hk, Bool.true_and, Nat.testBit_eq_decide_div_mod_eq]

/-- ADD and AND in register form: bit 5 is clear, and the two bits above `sr2` may be anything (R68). -/
theorem decode_registerForm {n : Nat} {dr sr1 sr2 : RegIdx} {ignored : Fin 4}
    (hn : n % 4096 = 512 * dr.val + 64 * sr1.val + 8 * ignored.val + sr2.val) :
    (n / 4096 = 1 → decode (wordOf n) = .addReg dr sr1 sr2) ∧
      (n / 4096 = 5 → decode (wordOf n) = .andReg dr sr1 sr2) := by
  have hform : (wordOf n).getLsbD 5 = false := by
    rw [getLsbD_wordOf (by decide), decide_eq_false_iff_not]
    omega
  have hdr : regField (wordOf n) 9 = dr := regField_wordOf (by decide) (by omega)
  have hsr1 : regField (wordOf n) 6 = sr1 := regField_wordOf (by decide) (by omega)
  have hsr2 : regField (wordOf n) 0 = sr2 := regField_wordOf (by decide) (by omega)
  refine ⟨fun hop => (decode_wordOf (op := .add) hop).trans ?_,
    fun hop => (decode_wordOf (op := .and) hop).trans ?_⟩
  all_goals rw [decodeAs, hform, hdr, hsr1, hsr2, if_neg Bool.false_ne_true]

/-- ADD and AND in immediate form: bit 5 is set, and the bits below it are the immediate. -/
theorem decode_immediateForm {n : Nat} {dr sr1 : RegIdx} {imm : BitVec 5}
    (hn : n % 4096 = 512 * dr.val + 64 * sr1.val + 32 + imm.toNat) :
    (n / 4096 = 1 → decode (wordOf n) = .addImm dr sr1 imm) ∧
      (n / 4096 = 5 → decode (wordOf n) = .andImm dr sr1 imm) := by
  have hform : (wordOf n).getLsbD 5 = true := by
    rw [getLsbD_wordOf (by decide), decide_eq_true_eq]
    omega
  have hdr : regField (wordOf n) 9 = dr := regField_wordOf (by decide) (by omega)
  have hsr1 : regField (wordOf n) 6 = sr1 := regField_wordOf (by decide) (by omega)
  have himm : (wordOf n).extractLsb' 0 5 = imm := extract_wordOf (by decide) (by omega)
  refine ⟨fun hop => (decode_wordOf (op := .add) hop).trans ?_,
    fun hop => (decode_wordOf (op := .and) hop).trans ?_⟩
  all_goals rw [decodeAs, hform, hdr, hsr1, himm, if_pos rfl]

/-- NOT: whatever stands in the six ignored bits (R68). -/
theorem decode_notForm {n : Nat} {dr sr : RegIdx} {ignored : Fin 64}
    (hn : n % 4096 = 512 * dr.val + 64 * sr.val + ignored.val) (hop : n / 4096 = 9) :
    decode (wordOf n) = .not dr sr := by
  have hdr : regField (wordOf n) 9 = dr := regField_wordOf (by decide) (by omega)
  have hsr : regField (wordOf n) 6 = sr := regField_wordOf (by decide) (by omega)
  rw [decode_wordOf (op := .not) hop, decodeAs, hdr, hsr]

/-! ## The results of the operate instructions (41_operate.md) -/

/-- Writing a result leaves it in `x[dr]`, sets the flags by its sign, goes on to the next word and changes nothing
else (40_fetch_decode R104). -/
theorem writeResult_resultWritten (s : State) (dr : RegIdx) (v : Word) :
    ResultWritten s (s.writeResult dr v) dr v := by
  have hzero : v = 0 ↔ v.toNat = 0 := BitVec.toNat_inj.symm
  refine ⟨?result, ?n, ?z, ?p, isMod_incPc s, fun r hr => ?kept, fun _ _ => rfl, rfl, rfl⟩
  case result => rw [writeResult_readReg, if_pos rfl]
  case kept => rw [writeResult_readReg, if_neg (List.ne_of_not_mem_cons hr)]
  all_goals rw [writeResult_flags, setcc_eq, decide_eq_true_eq]
  case z => exact hzero

/-- The bits of a sign-extended field: its own below the width, its top bit from there on (00_scope R12). -/
theorem getLsbD_sext {n : Nat} (hpos : 0 < n) (f : BitVec n) {k : Nat} (hk : k < 16) :
    (sext f).getLsbD k = f.getLsbD (min k (n - 1)) := by
  rw [sext, BitVec.getLsbD_signExtend, decide_eq_true hk, Bool.true_and]
  split
  next hlt => rw [min_eq_left (by omega)]
  next hge => rw [min_eq_right (by omega), BitVec.msb_eq_getLsbD_last]

/-- Settles O10: the sum of two registers, and of a register and a sign-extended immediate, taken modulo 2^16. -/
theorem addWritesTheWrappedSum : Obligations.AddWritesTheWrappedSum :=
  ⟨fun _ _ _ ignored => (decode_registerForm (ignored := ignored) (by omega)).1 (by omega),
    fun _ _ _ => (decode_immediateForm (by omega)).1 (by omega),
    fun dr _ _ s => ⟨_, _, rfl, isMod_add (isMod_toNat _) (isMod_toNat _), writeResult_resultWritten s dr _⟩,
    fun dr _ imm s => ⟨_, _, rfl, isMod_add (isMod_toNat _) (isMod_sext imm), writeResult_resultWritten s dr _⟩⟩

/-- Settles O11: each bit of the result is the conjunction of the operands' bits; the immediate's are those of its
sign extension. -/
theorem andWritesTheBitwiseAnd : Obligations.AndWritesTheBitwiseAnd := by
  refine ⟨fun _ _ _ ignored => (decode_registerForm (ignored := ignored) (by omega)).2 (by omega),
    fun _ _ _ => (decode_immediateForm (by omega)).2 (by omega),
    fun dr _ _ s => ⟨_, _, rfl, fun _ _ => BitVec.getLsbD_and, writeResult_resultWritten s dr _⟩,
    fun dr _ imm s => ⟨_, _, rfl, fun k hk => ?_, writeResult_resultWritten s dr _⟩⟩
  rw [BitVec.getLsbD_and, getLsbD_sext (by decide) imm hk]

/-- Settles O12: the complement of a word is its difference from 0xFFFF. -/
theorem notWritesTheComplement : Obligations.NotWritesTheComplement :=
  ⟨fun _ _ ignored => decode_notForm (ignored := ignored) (by omega) (by omega),
    fun dr _ s => ⟨_, _, rfl, BitVec.toNat_not, writeResult_resultWritten s dr _⟩⟩

end Sys2Proof.Proofs

namespace Sys2Proof.Proofs

open Sys2Proof.Machine Sys2Proof.Safety Sys2Proof.Laws

/-! ## The words of the control transfers (30_encoding R67) -/

/-- A bit of a number's word is the binary digit of the number at that place. -/
theorem bit_wordOf {n k : Nat} {b : Bool} (hk : k < 16) (h : n / 2 ^ k % 2 = b.toNat) :
    (wordOf n).getLsbD k = b := by
  rw [getLsbD_wordOf hk, h]
  cases b <;> rfl

/-- BR: the mask's three bits stand above the offset, and the opcode is 0. -/
theorem decode_branchForm (n z p : Bool) (off : BitVec 9) :
    decode (wordOf (2048 * n.toNat + 1024 * z.toNat + 512 * p.toNat + off.toNat)) = .br n z p off := by
  have hmask : n.toNat < 2 ∧ z.toNat < 2 ∧ p.toNat < 2 := ⟨n.toNat_lt, z.toNat_lt, p.toNat_lt⟩
  generalize hw : 2048 * n.toNat + 1024 * z.toNat + 512 * p.toNat + off.toNat = w
  have hn : (wordOf w).getLsbD 11 = n := bit_wordOf (by decide) (by omega)
  have hz : (wordOf w).getLsbD 10 = z := bit_wordOf (by decide) (by omega)
  have hp : (wordOf w).getLsbD 9 = p := bit_wordOf (by decide) (by omega)
  have hoff : (wordOf w).extractLsb' 0 9 = off := extract_wordOf (by decide) (by omega)
  rw [decode_wordOf (op := .br) (show _ = 0 by omega), decodeAs, hn, hz, hp, hoff]

/-- JMP: whatever stands in the ignored bits on either side of the base register (R68). -/
theorem decode_jumpForm (baseR : RegIdx) (high : Fin 8) (low : Fin 64) :
    decode (wordOf (0xC000 + 512 * high.val + 64 * baseR.val + low.val)) = .jmp baseR := by
  generalize hw : 0xC000 + 512 * high.val + 64 * baseR.val + low.val = w
  have hbase : regField (wordOf w) 6 = baseR := regField_wordOf (by decide) (by omega)
  rw [decode_wordOf (op := .jmp) (show _ = 12 by omega), decodeAs, hbase]

/-- JSR: bit 11 is set, and the bits below it are the offset. -/
theorem decode_callForm (off : BitVec 11) : decode (wordOf (0x4800 + off.toNat)) = .jsr off := by
  generalize hw : 0x4800 + off.toNat = w
  have hform : (wordOf w).getLsbD 11 = true := bit_wordOf (by decide) (show _ = 1 by omega)
  have hoff : (wordOf w).extractLsb' 0 11 = off := extract_wordOf (by decide) (by omega)
  rw [decode_wordOf (op := .jsr) (show _ = 4 by omega), decodeAs, hform, if_pos rfl, hoff]

/-- JSRR: bit 11 is clear, whatever stands in the ignored bits on either side of the base register (R68). -/
theorem decode_registerCallForm (baseR : RegIdx) (high : Fin 4) (low : Fin 64) :
    decode (wordOf (0x4000 + 512 * high.val + 64 * baseR.val + low.val)) = .jsrr baseR := by
  generalize hw : 0x4000 + 512 * high.val + 64 * baseR.val + low.val = w
  have hform : (wordOf w).getLsbD 11 = false := bit_wordOf (by decide) (show _ = 0 by omega)
  have hbase : regField (wordOf w) 6 = baseR := regField_wordOf (by decide) (by omega)
  rw [decode_wordOf (op := .jsr) (show _ = 4 by omega), decodeAs, hform, if_neg Bool.false_ne_true, hbase]

/-! ## Branches and jumps (42_control R130, R131) -/

/-- Setting the pc changes nothing else. -/
theorem setPc_onlyPcMoved (s : State) (target : Word) : OnlyPcMoved s (s.setPc target) target :=
  ⟨rfl, fun _ _ => rfl, fun _ _ => rfl, rfl, rfl, rfl⟩

/-- A branch is taken exactly when a flag of its mask is set. -/
theorem branchTaken_iff (n z p : Bool) (f : Flags) :
    branchTaken n z p f = true ↔ (n = true ∧ f.n = true) ∨ (z = true ∧ f.z = true) ∨ (p = true ∧ f.p = true) := by
  rw [branchTaken, Bool.or_eq_true, Bool.or_eq_true, Bool.and_eq_true, Bool.and_eq_true, Bool.and_eq_true, or_assoc]

/-- Settles O13: the branch condition selects between the PC-relative address and the next instruction. -/
theorem branchGoesWhenAMaskedFlagIsSet : Obligations.BranchGoesWhenAMaskedFlagIsSet := by
  refine ⟨decode_branchForm, fun n z p off s => ⟨_, _, rfl, setPc_onlyPcMoved s _, fun htaken => ?taken,
    fun hpassed => ?passed⟩⟩
  case taken =>
    rw [if_pos ((branchTaken_iff n z p s.flags).mpr htaken)]
    exact isMod_pcRelative s off
  case passed =>
    rw [if_neg (mt (branchTaken_iff n z p s.flags).mp hpassed)]
    exact isMod_incPc s

/-- Settles O14: a jump sets the pc to the base register's word; RET is its word for R7. -/
theorem jumpGoesToTheBaseRegister : Obligations.JumpGoesToTheBaseRegister :=
  ⟨decode_jumpForm, by decide, fun baseR s => ⟨_, rfl, setPc_onlyPcMoved s (s.readReg baseR)⟩⟩

/-! ## Calls (42_control R132, decision D5) -/

/-- Linking leaves the return address in R7 and changes no other register, memory, flag or control word. -/
theorem linkAndJump_linked (s : State) (target : Word) : Linked s (s.linkAndJump target) target := by
  refine ⟨?link, rfl, fun r hr => ?kept, fun _ _ => rfl, rfl, rfl, rfl⟩
  case link =>
    rw [linkAndJump_readReg, if_pos (show 7 = linkReg from rfl)]
    exact isMod_incPc s
  case kept => rw [linkAndJump_readReg, if_neg (show r ≠ linkReg from List.ne_of_not_mem_cons hr)]

/-- Where the base register is read before the link, or is not R7, the call goes to its word before the step. -/
theorem callRegister_linked_base {order : LinkOrder} {baseR : RegIdx} (s : State)
    (h : ¬(order = .linkFirst ∧ baseR = linkReg)) : Linked s (s.callRegister order baseR) (s.readReg baseR) := by
  rw [callRegister_eq, if_neg h]
  exact linkAndJump_linked s _

/-- With the link written first, a call through R7 reads the return address it has just written. -/
theorem callRegister_linked_return (s : State) : Linked s (s.callRegister .linkFirst 7) s.incPc := by
  rw [callRegister_eq, if_pos ⟨rfl, rfl⟩]
  exact linkAndJump_linked s _

/-- Only JSRR reads the link order (00_scope R9). -/
theorem execIn_eq_exec (order : LinkOrder) {i : Instr} (s : State) (h : ∀ baseR, i ≠ .jsrr baseR) :
    execIn order i s = exec i s := by
  cases i
  case jsrr baseR => exact absurd rfl (h baseR)
  all_goals rfl

/-- Settles O15: every call is a link and a jump, and the order matters only to a target read of R7. -/
theorem callSavesTheReturnAddress : Obligations.CallSavesTheReturnAddress := by
  have hbase {order : LinkOrder} {baseR : RegIdx} (s : State) (hne : baseR ≠ 7) :
      Linked s (s.callRegister order baseR) (s.readReg baseR) :=
    callRegister_linked_base s fun h => hne h.2
  have htarget (s : State) : Linked s (s.callRegister .targetFirst 7) (s.readReg 7) :=
    callRegister_linked_base s fun h => LinkOrder.noConfusion h.1
  exact ⟨decode_callForm, decode_registerCallForm,
    fun off s => ⟨_, _, rfl, isMod_pcRelative s off, linkAndJump_linked s _⟩,
    fun _ s hne => ⟨_, rfl, hbase s hne⟩, fun _ s _ hne => hbase s hne, htarget,
    fun s => ⟨_, isMod_incPc s, callRegister_linked_return s⟩, fun _ _ _ => rfl,
    fun order _ s => execIn_eq_exec order s, fun i s => (execIn_jsrrLinkOrder i s).symm⟩

/-- Settles O16: `exec` runs JSRR in the order LINK_FIRST. -/
theorem registerCallThroughR7LinksFirst : Obligations.RegisterCallThroughR7LinksFirst :=
  fun s => ⟨_, _, rfl, isMod_incPc s, callRegister_linked_return s⟩

end Sys2Proof.Proofs

namespace Sys2Proof.Proofs

open Sys2Proof.Machine Sys2Proof.Safety Sys2Proof.Laws

/-! ## The words of the loads and of LEA (30_encoding R67) -/

/-- The operands of a register above a 9-bit offset, whatever the opcode. -/
theorem operands_registerOffsetForm {n : Nat} {r : RegIdx} {off : BitVec 9}
    (hn : n % 4096 = 512 * r.val + off.toNat) :
    regField (wordOf n) 9 = r ∧ (wordOf n).extractLsb' 0 9 = off :=
  ⟨regField_wordOf (by decide) (by omega), extract_wordOf (by decide) (by omega)⟩

/-- The operands of a register above a base register and a 6-bit offset, whatever the opcode. -/
theorem operands_baseOffsetForm {n : Nat} {r baseR : RegIdx} {off : BitVec 6}
    (hn : n % 4096 = 512 * r.val + 64 * baseR.val + off.toNat) :
    regField (wordOf n) 9 = r ∧ regField (wordOf n) 6 = baseR ∧ (wordOf n).extractLsb' 0 6 = off :=
  ⟨regField_wordOf (by decide) (by omega), regField_wordOf (by decide) (by omega),
    extract_wordOf (by decide) (by omega)⟩

/-- LD, LDI and LEA share their operands and differ in the opcode alone. -/
theorem decode_pcRelativeForm {n : Nat} {dr : RegIdx} {off : BitVec 9}
    (hn : n % 4096 = 512 * dr.val + off.toNat) :
    (n / 4096 = 2 → decode (wordOf n) = .ld dr off) ∧ (n / 4096 = 10 → decode (wordOf n) = .ldi dr off) ∧
      (n / 4096 = 14 → decode (wordOf n) = .lea dr off) := by
  obtain ⟨hdr, hoff⟩ := operands_registerOffsetForm hn
  refine ⟨fun hop => (decode_wordOf (op := .ld) hop).trans ?_, fun hop => (decode_wordOf (op := .ldi) hop).trans ?_,
    fun hop => (decode_wordOf (op := .lea) hop).trans ?_⟩
  all_goals rw [decodeAs, hdr, hoff]

/-- LDR: the base register stands between the destination and the offset. -/
theorem decode_loadBaseForm (dr baseR : RegIdx) (off : BitVec 6) :
    decode (wordOf (0x6000 + 512 * dr.val + 64 * baseR.val + off.toNat)) = .ldr dr baseR off := by
  generalize hw : 0x6000 + 512 * dr.val + 64 * baseR.val + off.toNat = w
  obtain ⟨hdr, hbase, hoff⟩ :=
    operands_baseOffsetForm (show w % 4096 = 512 * dr.val + 64 * baseR.val + off.toNat by omega)
  rw [decode_wordOf (op := .ldr) (show _ = 6 by omega), decodeAs, hdr, hbase, hoff]

/-! ## The loads (43_load R140 to R142) -/

/-- Settles O17: the word at the PC-relative address is the result, and the address is reported. -/
theorem loadReadsThePcRelativeWord : Obligations.LoadReadsThePcRelativeWord :=
  ⟨fun _ _ => (decode_pcRelativeForm (by omega)).1 (by omega),
    fun dr off s => ⟨_, _, rfl, isMod_pcRelative s off, writeResult_resultWritten s dr _, rfl⟩⟩

/-- Settles O18: the PC-relative address holds the pointer; the word it points to is the result, and the pointer is
what is reported. -/
theorem loadIndirectReadsThroughThePointer : Obligations.LoadIndirectReadsThroughThePointer :=
  ⟨fun _ _ => (decode_pcRelativeForm (by omega)).2.1 (by omega),
    fun dr off s => ⟨_, _, rfl, isMod_pcRelative s off, writeResult_resultWritten s dr _, rfl⟩⟩

/-- Settles O19: the address comes from the state before the step, so `dr = baseR` is no special case. -/
theorem loadBaseOffsetReadsTheWord : Obligations.LoadBaseOffsetReadsTheWord :=
  ⟨decode_loadBaseForm,
    fun dr baseR off s => ⟨_, _, rfl, isMod_baseOffset s baseR off, writeResult_resultWritten s dr _, rfl⟩⟩

/-! ## LEA (43_load R143) -/

/-- Writing a result neither reads memory nor changes it. -/
theorem writeResult_withMem (s : State) (m : Memory) (dr : RegIdx) (v : Word) :
    { s with mem := m }.writeResult dr v = { s.writeResult dr v with mem := m } := rfl

/-- Settles O20: the PC-relative address itself is the result, and it is the same over every memory. -/
theorem leaWritesTheAddress : Obligations.LeaWritesTheAddress :=
  ⟨fun _ _ => (decode_pcRelativeForm (by omega)).2.2 (by omega),
    fun dr off s => ⟨_, _, rfl, isMod_pcRelative s off, writeResult_resultWritten s dr _, rfl⟩,
    fun dr off s m => ⟨_, rfl, congrArg Host.Outcome.next (writeResult_withMem s m dr (s.pcRelative off))⟩⟩

end Sys2Proof.Proofs

namespace Sys2Proof.Proofs

open Sys2Proof.Machine Sys2Proof.Safety Sys2Proof.Laws

/-! ## The words of the stores (30_encoding R67) -/

/-- ST and STI share their operands and differ in the opcode alone. -/
theorem decode_pcRelativeStoreForm {n : Nat} {sr : RegIdx} {off : BitVec 9}
    (hn : n % 4096 = 512 * sr.val + off.toNat) :
    (n / 4096 = 3 → decode (wordOf n) = .st sr off) ∧ (n / 4096 = 11 → decode (wordOf n) = .sti sr off) := by
  obtain ⟨hsr, hoff⟩ := operands_registerOffsetForm hn
  refine ⟨fun hop => (decode_wordOf (op := .st) hop).trans ?_, fun hop => (decode_wordOf (op := .sti) hop).trans ?_⟩
  all_goals rw [decodeAs, hsr, hoff]

/-- STR: the base register stands between the source and the offset. -/
theorem decode_storeBaseForm (sr baseR : RegIdx) (off : BitVec 6) :
    decode (wordOf (0x7000 + 512 * sr.val + 64 * baseR.val + off.toNat)) = .str sr baseR off := by
  generalize hw : 0x7000 + 512 * sr.val + 64 * baseR.val + off.toNat = w
  obtain ⟨hsr, hbase, hoff⟩ :=
    operands_baseOffsetForm (show w % 4096 = 512 * sr.val + 64 * baseR.val + off.toNat by omega)
  rw [decode_wordOf (op := .str) (show _ = 7 by omega), decodeAs, hsr, hbase, hoff]

/-! ## The stores (44_store R150 to R152) -/

/-- Storing a word leaves it at its address, goes on to the next word and changes nothing else. -/
theorem storeWord_stored (s : State) (a v : Word) : Stored s (s.storeWord a v) a v := by
  refine ⟨?written, fun b hb => ?kept, isMod_incPc s, fun _ _ => rfl, rfl, rfl, rfl⟩
  case written => rw [storeWord_readMem, if_pos rfl]
  case kept => rw [storeWord_readMem, if_neg (List.ne_of_not_mem_cons hb)]

/-- Settles O21: the register's word is stored at the PC-relative address. -/
theorem storeWritesThePcRelativeWord : Obligations.StoreWritesThePcRelativeWord :=
  ⟨fun _ _ => (decode_pcRelativeStoreForm (by omega)).1 (by omega),
    fun sr off s => ⟨_, rfl, isMod_pcRelative s off, storeWord_stored s (s.pcRelative off) (s.readReg sr)⟩⟩

/-- Settles O22: the pointer is a word of the state before the step, so `mem[p] = p` is no special case; the pointer
read is not reported. -/
theorem storeIndirectWritesThroughThePointer : Obligations.StoreIndirectWritesThroughThePointer :=
  ⟨fun _ _ => (decode_pcRelativeStoreForm (by omega)).2 (by omega),
    fun sr off s => ⟨_, rfl, isMod_pcRelative s off, storeWord_stored s (s.indirect off) (s.readReg sr), rfl⟩⟩

/-- Settles O23: base and source are both read before the step, so `sr = baseR` is no special case. -/
theorem storeBaseOffsetWritesTheWord : Obligations.StoreBaseOffsetWritesTheWord :=
  ⟨decode_storeBaseForm, fun sr baseR off s =>
    ⟨_, rfl, isMod_baseOffset s baseR off, storeWord_stored s (s.baseOffset baseR off) (s.readReg sr)⟩⟩

end Sys2Proof.Proofs

namespace Sys2Proof.Proofs

open Sys2Proof.Machine Sys2Proof.Safety Sys2Proof.Laws

/-! ## The words of the system instructions (30_encoding R67) -/

/-- TRAP: whatever stands in the four ignored bits above the vector (R68). -/
theorem decode_trapForm (vector : BitVec 8) (ignored : Fin 16) :
    decode (wordOf (0xF000 + 256 * ignored.val + vector.toNat)) = .trap vector := by
  generalize hw : 0xF000 + 256 * ignored.val + vector.toNat = w
  have hvector : (wordOf w).extractLsb' 0 8 = vector := extract_wordOf (by decide) (by omega)
  rw [decode_wordOf (op := .trap) (show _ = 15 by omega), decodeAs, hvector]

/-- RTI: the opcode alone, whatever stands in the twelve bits below it (R68). -/
theorem decode_returnForm (ignored : Fin 4096) : decode (wordOf (0x8000 + ignored.val)) = .rti := by
  rw [decode_wordOf (op := .rti) (show _ = 8 by omega), decodeAs]

/-! ## TRAP (45_system R160, decision D4) -/

/-- The trap table's entry stands at the address that is the vector's own number: the vector is zero-extended. -/
theorem trapEntry_eq (s : State) (vector : BitVec 8) : s.trapEntry vector = s.readMem (wordOf vector.toNat) :=
  congrArg s.readMem (BitVec.ofNat_toNat 16 vector).symm

/-- Settles O25: TRAP is the link and jump of the calls, with its target read from the trap table. -/
theorem trapCallsThroughTheTable : Obligations.TrapCallsThroughTheTable :=
  ⟨decode_trapForm, fun vector s => ⟨_, rfl, trapEntry_eq s vector ▸ linkAndJump_linked s _⟩⟩

/-! ## RTI (45_system R161, decisions D6 and D7) -/

/-- Settles O26: the two words on top of the R6 stack are popped, the pc's first; the return writes neither memory
nor the flags nor the saved stack pointer. -/
theorem returnFromInterruptPopsPcAndPsr : Obligations.ReturnFromInterruptPopsPcAndPsr := by
  refine ⟨decode_returnForm, fun s => ⟨_, s.readReg 6 + 1, rfl, isMod_add (isMod_toNat _) (isMod_toNat 1), ?_⟩⟩
  obtain ⟨hpc, hpsr, hsp, hothers, hmem, hflags, hssp⟩ := returnFromInterrupt_spec s
  refine ⟨hpc, hpsr, ?sp, fun r hr => hothers r (List.ne_of_not_mem_cons hr), fun a _ => ?memory, hflags, hssp⟩
  case sp => exact hsp ▸ isMod_add (isMod_toNat _) (isMod_toNat 2)
  case memory => exact congrArg (fun m : Memory => m.read a) hmem

end Sys2Proof.Proofs

namespace Sys2Proof.Proofs

open Sys2Proof.Machine Sys2Proof.Safety Sys2Proof.Laws

/-! ## Sequencing in `Except` -/

/-- A sequence answers when both of its parts do. -/
theorem bind_eq_ok_iff {ε α β : Type} {x : Except ε α} {f : α → Except ε β} {b : β} :
    (x >>= f) = .ok b ↔ ∃ a, x = .ok a ∧ f a = .ok b := by
  cases x with
  | error e => simp [bind, Except.bind]
  | ok a => simp [bind, Except.bind]

/-- A sequence fails in its first part, or in its second after the first has answered. -/
theorem bind_eq_error_iff {ε α β : Type} {x : Except ε α} {f : α → Except ε β} {e : ε} :
    (x >>= f) = .error e ↔ x = .error e ∨ ∃ a, x = .ok a ∧ f a = .error e := by
  cases x with
  | error e' => simp [bind, Except.bind]
  | ok a => simp [bind, Except.bind]

/-! ## Range checks (46_assembler R183, R184) -/

/-- A field's sign extension is in the range of the field's width. -/
theorem sext_mem_range {n : Nat} (hn : n ≤ 16) (f : BitVec n) :
    -(2 ^ (n - 1) : Int) ≤ (sext f).toInt ∧ (sext f).toInt ≤ 2 ^ (n - 1) - 1 := by
  have hlo := BitVec.le_toInt f
  have hhi := BitVec.toInt_lt (x := f)
  rw [toInt_sext hn]
  omega

/-- A signed field holds a value of its range as its low bits. -/
theorem signedField_of_mem_range {n : Nat} (hn : 0 < n) (hn' : n ≤ 16) {v : Word}
    (h : -(2 ^ (n - 1) : Int) ≤ v.toInt ∧ v.toInt ≤ 2 ^ (n - 1) - 1) : signedField n v = .ok (v.setWidth n) :=
  if_pos (sext_setWidth hn hn' h)

/-- A signed field refuses a value outside its range. -/
theorem signedField_of_not_mem_range {n : Nat} (hn : 0 < n) (hn' : n ≤ 16) {v : Word}
    (h : ¬(-(2 ^ (n - 1) : Int) ≤ v.toInt ∧ v.toInt ≤ 2 ^ (n - 1) - 1)) :
    signedField n v = .error (.immediateOverflow n v.toInt (-(2 ^ (n - 1))) (2 ^ (n - 1) - 1)) :=
  if_neg (mt (sext_setWidth_iff hn hn' v).mp h)

/-- As a signed number a word is in 0 to 255 exactly when it is so as an unsigned one. -/
theorem toInt_mem_vectorRange_iff (v : Word) : (0 ≤ v.toInt ∧ v.toInt ≤ 255) ↔ v.toNat ≤ 255 := by
  have hlt := v.isLt
  rw [BitVec.toInt_eq_toNat_cond]
  split <;> omega

/-- The trap vector takes a value up to 0x00FF as its low bits. -/
theorem vectorField_of_le {v : Word} (h : v.toNat ≤ 255) : vectorField v = .ok (v.setWidth 8) :=
  if_pos ((toInt_mem_vectorRange_iff v).mpr h)

/-- Settles O50: a field accepts a value when the value comes back from its low bits. -/
theorem fieldsAcceptExactlyTheirRange : Obligations.FieldsAcceptExactlyTheirRange := by
  refine ⟨fun n hmem v => ?signed, fun v => ⟨fun h => ?vector, fun h => ?overflow⟩⟩
  case signed =>
    have hwidth : 0 < n ∧ n ≤ 16 := by
      have hall : ∀ m ∈ [5, 6, 9, 11], 0 < m ∧ m ≤ 16 := by decide
      exact hall n hmem
    obtain ⟨hn, hn'⟩ := hwidth
    refine ⟨fun h => ⟨v.setWidth n, signedField_of_mem_range hn hn' h, sext_setWidth hn hn' h, ?_⟩,
      fun h => ⟨signedField_of_not_mem_range hn hn' h, fun f hf => h (hf ▸ sext_mem_range hn' f)⟩⟩
    rw [← toInt_sext hn', sext_setWidth hn hn' h]
  case vector =>
    refine ⟨v.setWidth 8, vectorField_of_le h, ?_⟩
    rw [BitVec.toNat_setWidth, Nat.mod_eq_of_lt (by omega)]
  case overflow => exact if_neg (mt (toInt_mem_vectorRange_iff v).mp (by omega))

/-! ## The validation of one record (46_assembler R180) -/

/-- The operands have the count and the kinds of a layout. -/
def ShapeFits (slots : List Slot) (xs : List Operand) : Prop :=
  List.Forall₂ (fun slot x => operandKind x ∈ slotKinds slot) slots xs

/-- The kind check finds the first operand of a wrong kind. -/
theorem kindMismatch_of_first {slots : List Slot} {xs : List Operand} {k : Nat} (hx : k < xs.length)
    (hl : k < slots.length) (hwrong : operandKind xs[k] ∉ slotKinds slots[k])
    (hbefore : ∀ (j : Nat) (hj : j < k), operandKind xs[j] ∈ slotKinds slots[j]) (pos : Nat) :
    kindMismatch pos slots xs = some (pos + k, slotKinds slots[k]) := by
  induction k generalizing slots xs pos with
  | zero =>
    obtain ⟨x, xs, rfl⟩ := List.exists_cons_of_length_pos hx
    obtain ⟨slot, slots, rfl⟩ := List.exists_cons_of_length_pos hl
    exact if_neg hwrong
  | succ k ih =>
    obtain ⟨x, xs, rfl⟩ := List.exists_cons_of_length_pos (Nat.zero_lt_of_lt hx)
    obtain ⟨slot, slots, rfl⟩ := List.exists_cons_of_length_pos (Nat.zero_lt_of_lt hl)
    have hrest := ih (Nat.lt_of_succ_lt_succ hx) (Nat.lt_of_succ_lt_succ hl) hwrong
      (fun j hj => hbefore (j + 1) (Nat.succ_lt_succ hj)) (pos + 1)
    rw [Nat.add_right_comm] at hrest
    exact (if_pos (hbefore 0 k.succ_pos)).trans hrest

/-- The kind check passes only operands of the kinds of their slots. -/
theorem shapeFits_of_kindMismatch_none {slots : List Slot} {xs : List Operand} {pos : Nat}
    (hlen : xs.length = slots.length) (h : kindMismatch pos slots xs = none) : ShapeFits slots xs := by
  induction slots generalizing xs pos with
  | nil =>
    obtain rfl := List.eq_nil_of_length_eq_zero hlen
    exact .nil
  | cons slot slots ih =>
    obtain ⟨x, xs, rfl⟩ := List.exists_cons_of_length_eq_add_one hlen
    unfold kindMismatch at h
    split at h
    next hkind => exact .cons hkind (ih (Nat.succ_inj.mp hlen) h)
    next => cases h

/-- What the count and kind checks have found of the operands that they pass. -/
theorem of_checkShape_ok {op : OpId} {xs : List Operand} (h : checkShape op xs = .ok ()) :
    xs.length = (layout op).length ∧ kindMismatch 1 (layout op) xs = none := by
  unfold checkShape at h
  split at h
  next => cases h
  next hlen =>
    split at h
    next => cases h
    next hkinds => exact ⟨not_not.mp hlen, hkinds⟩

/-- A layout takes a label in its last slot only. -/
theorem label_notMem_slotKinds_dropLast (op : OpId) :
    ∀ slot ∈ (layout op).dropLast, OperandKind.label ∉ slotKinds slot := by
  cases op <;> simp [layout, slotKinds]

/-- Where only the last slot takes a label, a label is the last operand. -/
theorem getLast?_of_label_mem {slots : List Slot} {xs : List Operand} {l : LabelName} (hfits : ShapeFits slots xs)
    (hslots : ∀ slot ∈ slots.dropLast, OperandKind.label ∉ slotKinds slot) (hl : Operand.label l ∈ xs) :
    xs.getLast? = some (.label l) := by
  induction hfits with
  | nil => cases hl
  | @cons slot x slots xs hkind hfits ih =>
    cases hfits with
    | nil => rw [List.mem_singleton.mp hl, List.getLast?_singleton]
    | cons hkind' hfits =>
      rw [List.getLast?_cons_cons]
      rcases List.mem_cons.mp hl with rfl | hl
      · exact absurd hkind (hslots slot List.mem_cons_self)
      · exact ih (fun slot hslot => hslots slot (List.mem_cons_of_mem _ hslot)) hl

/-- Resolution fails only at a label that the table lacks (R181). -/
theorem resolveOperand_error {tab : SymTab} {a : Word} {x : Operand} {kind : AsmErrorKind}
    (h : resolveOperand tab a x = .error kind) :
    ∃ l, x = .label l ∧ lookupLabel tab l = none ∧ kind = .unresolvedLabel l := by
  cases x with
  | reg i => cases h
  | imm v width raw => cases h
  | label l =>
    simp only [resolveOperand] at h
    split at h
    next => cases h
    next hnone => cases h; exact ⟨l, rfl, hnone, rfl⟩

/-- A list of operands, too, fails only at a label that the table lacks. -/
theorem resolveOperands_error {tab : SymTab} {a : Word} {xs : List Operand} {kind : AsmErrorKind}
    (h : resolveOperands tab a xs = .error kind) :
    ∃ l, .label l ∈ xs ∧ lookupLabel tab l = none ∧ kind = .unresolvedLabel l := by
  induction xs with
  | nil => cases h
  | cons x xs ih =>
    rcases bind_eq_error_iff.mp h with hx | ⟨f, -, h⟩
    · obtain ⟨l, rfl, hnone, hkind⟩ := resolveOperand_error hx
      exact ⟨l, List.mem_cons_self, hnone, hkind⟩
    · rcases bind_eq_error_iff.mp h with hxs | ⟨fs, -, h⟩
      · obtain ⟨l, hl, hrest⟩ := ih hxs
        exact ⟨l, List.mem_cons_of_mem _ hl, hrest⟩
      · cases h

/-- Resolution gets past a label only where the table has it. -/
theorem lookupLabel_of_resolveOperands {tab : SymTab} {a : Word} {xs : List Operand} {fs : List FieldValue}
    (h : resolveOperands tab a xs = .ok fs) {l : LabelName} (hl : .label l ∈ xs) : lookupLabel tab l ≠ none := by
  induction xs generalizing fs with
  | nil => cases hl
  | cons x xs ih =>
    obtain ⟨f, gs, -, hf, hgs⟩ := resolveOperands_cons h
    rcases List.mem_cons.mp hl with rfl | hl
    · intro hnone
      simp [resolveOperand, hnone] at hf
    · exact ih hgs hl

/-- The answer reports an overflow only of a value outside the bounds that it reports. -/
def OverflowsOutside {α : Type} (r : Except AsmErrorKind α) : Prop :=
  ∀ n v lo hi, r = .error (.immediateOverflow n v lo hi) → v < lo ∨ hi < v

theorem overflowsOutside_ok {α : Type} (x : α) : OverflowsOutside (.ok x : Except AsmErrorKind α) := by
  intro n v lo hi h
  cases h

theorem overflowsOutside_countMismatch {α : Type} (expected found : Nat) :
    OverflowsOutside (.error (.operandCountMismatch expected found) : Except AsmErrorKind α) := by
  intro n v lo hi h
  cases h

theorem overflowsOutside_signedField {α : Type} {n : Nat} (hn : 0 < n) (hn' : n ≤ 16) (v : Word) (mk : BitVec n → α) :
    OverflowsOutside ((signedField n v).map mk) := by
  intro m w lo hi h
  by_cases hrange : -(2 ^ (n - 1) : Int) ≤ v.toInt ∧ v.toInt ≤ 2 ^ (n - 1) - 1
  · rw [signedField_of_mem_range hn hn' hrange] at h
    cases h
  · rw [signedField_of_not_mem_range hn hn' hrange] at h
    cases h
    omega

theorem overflowsOutside_vectorField {α : Type} (v : Word) (mk : BitVec 8 → α) :
    OverflowsOutside ((vectorField v).map mk) := by
  intro m w lo hi h
  rcases vectorField_cases v with ⟨hok, -⟩ | ⟨herror, hrange⟩
  · rw [hok] at h
    cases h
  · rw [herror] at h
    cases h
    omega

/-- The builder checks one field at most, and passes on the overflow of that. -/
theorem overflowsOutside_toInstr {op : OpId} {fs : List FieldValue} (hfits : List.Forall₂ Fits (layout op) fs) :
    OverflowsOutside (toInstr op fs) := by
  have signed {n : Nat} (hn : 0 < n ∧ n ≤ 16) (v : Word) (mk : BitVec n → Instr) :
      OverflowsOutside ((signedField n v).map mk) :=
    overflowsOutside_signedField hn.1 hn.2 v mk
  cases op
  case add | and =>
    obtain ⟨⟩ | ⟨⟨dr, rfl⟩, ⟨⟩ | ⟨⟨sr1, rfl⟩, ⟨⟩ | ⟨-, ⟨⟩⟩⟩⟩ := hfits
    rename_i f
    cases f with
    | reg sr2 => exact overflowsOutside_ok _
    | value v => exact signed (by decide) v _
  case jsr =>
    obtain ⟨⟩ | ⟨-, ⟨⟩⟩ := hfits
    rename_i f
    cases f with
    | reg baseR => exact overflowsOutside_ok _
    | value v => exact signed (by decide) v _
  case br =>
    obtain ⟨⟩ | ⟨⟨v, rfl⟩, ⟨⟩⟩ := hfits
    exact signed (by decide) v _
  case ld | ldi | lea | st | sti =>
    obtain ⟨⟩ | ⟨⟨r, rfl⟩, ⟨⟩ | ⟨⟨v, rfl⟩, ⟨⟩⟩⟩ := hfits
    exact signed (by decide) v _
  case ldr | str =>
    obtain ⟨⟩ | ⟨⟨r, rfl⟩, ⟨⟩ | ⟨⟨baseR, rfl⟩, ⟨⟩ | ⟨⟨v, rfl⟩, ⟨⟩⟩⟩⟩ := hfits
    exact signed (by decide) v _
  case trap =>
    obtain ⟨⟩ | ⟨⟨v, rfl⟩, ⟨⟩⟩ := hfits
    exact overflowsOutside_vectorField v _
  case not =>
    obtain ⟨⟩ | ⟨⟨dr, rfl⟩, ⟨⟩ | ⟨⟨sr, rfl⟩, ⟨⟩⟩⟩ := hfits
    exact overflowsOutside_ok _
  case jmp =>
    obtain ⟨⟩ | ⟨⟨baseR, rfl⟩, ⟨⟩⟩ := hfits
    exact overflowsOutside_ok _
  case rti =>
    obtain ⟨⟩ := hfits
    exact overflowsOutside_ok _

/-- The shape is checked before anything else of a record. -/
theorem encodeRecord_of_checkShape_error {tab : SymTab} {a : Word} {op : OpId} {xs : List Operand}
    {kind : AsmErrorKind} (h : checkShape op xs = .error kind) : encodeRecord tab a op xs = .error kind :=
  bind_eq_error_iff.mpr (.inl h)

/-- The labels of a record of the right shape are resolved before any range is checked. -/
theorem encodeRecord_of_resolveOperands_error {tab : SymTab} {a : Word} {op : OpId} {xs : List Operand}
    {kind : AsmErrorKind} (hshape : checkShape op xs = .ok ()) (h : resolveOperands tab a xs = .error kind) :
    encodeRecord tab a op xs = .error kind :=
  bind_eq_error_iff.mpr (.inr ⟨(), hshape, bind_eq_error_iff.mpr (.inl h)⟩)

/-- Past its labels a record is what the builder makes of its operands. -/
theorem encodeRecord_eq_toInstr {tab : SymTab} {a : Word} {op : OpId} {xs : List Operand} {fs : List FieldValue}
    (hshape : checkShape op xs = .ok ()) (hres : resolveOperands tab a xs = .ok fs) :
    encodeRecord tab a op xs = (toInstr op fs).map fun i => opcodeBits (operationOf op) ||| operandBits i := by
  unfold encodeRecord
  rw [hshape, hres]
  change (toInstr op fs >>= fun i => pure (opcodeBits (operationOf op) ||| operandBits i)) = _
  cases toInstr op fs <;> rfl

/-- Settles O52: each check of a record stands behind those before it. -/
theorem recordsAreValidatedInOrder : Obligations.RecordsAreValidatedInOrder := by
  refine fun tab a op xs => ⟨fun hcount => ?count, fun k hx hl hlen hwrong hbefore => ?kinds,
    fun hshape l hl hnone => ?labels, fun hshape hdefined => ?ranges⟩
  case count => exact encodeRecord_of_checkShape_error (if_pos hcount)
  case kinds =>
    apply encodeRecord_of_checkShape_error
    rw [checkShape, if_neg (not_not.mpr hlen), kindMismatch_of_first hx hl hwrong hbefore, Nat.add_comm]
  case labels =>
    apply encodeRecord_of_resolveOperands_error hshape
    cases hres : resolveOperands tab a xs with
    | ok fs => exact absurd hnone (lookupLabel_of_resolveOperands hres hl)
    | error kind =>
      obtain ⟨l', hl', -, rfl⟩ := resolveOperands_error hres
      obtain ⟨hlen, hkinds⟩ := of_checkShape_ok hshape
      have hlast {m : LabelName} (hm : .label m ∈ xs) : xs.getLast? = some (.label m) :=
        getLast?_of_label_mem (shapeFits_of_kindMismatch_none hlen hkinds) (label_notMem_slotKinds_dropLast op) hm
      have hsame : some (Operand.label l') = some (.label l) := (hlast hl').symm.trans (hlast hl)
      cases hsame
      rfl
  case ranges =>
    cases hres : resolveOperands tab a xs with
    | error kind =>
      obtain ⟨l, hl, hnone, -⟩ := resolveOperands_error hres
      exact absurd hnone (hdefined l hl)
    | ok fs =>
      rw [encodeRecord_eq_toInstr hshape hres]
      rcases toInstr_of_checkShape hshape hres with ⟨i, hi, -⟩ | ⟨n, v, lo, hi, herror⟩
      · exact .inl ⟨_, by rw [hi]; rfl⟩
      · obtain ⟨hlen, hkinds⟩ := of_checkShape_ok hshape
        have hfits := fits_of_checked _ _ _ _ hlen hkinds hres
        exact .inr ⟨n, v, lo, hi, by rw [herror]; rfl, overflowsOutside_toInstr hfits n v lo hi herror⟩

end Sys2Proof.Proofs

namespace Sys2Proof.Proofs

open Sys2Proof.Machine Sys2Proof.Safety Sys2Proof.Laws

/-! ## Operand fields as numbers (46_assembler R185) -/

/-- Bits put below a multiple of `2 ^ k` add up with it. -/
theorem or_wordOf {k x y : Nat} (hx : 2 ^ k ∣ x) (hy : y < 2 ^ k) : wordOf x ||| wordOf y = wordOf (x + y) := by
  obtain ⟨m, rfl⟩ := hx
  rw [Nat.two_pow_add_eq_or_of_lt hy, wordOf, wordOf, wordOf, BitVec.ofNat_or]

/-- A shift to the left multiplies the number. -/
theorem wordOf_shiftLeft (x o : Nat) : wordOf x <<< o = wordOf (2 ^ o * x) := by
  apply BitVec.eq_of_toNat_eq
  rw [wordOf, wordOf, BitVec.toNat_shiftLeft, BitVec.toNat_ofNat, BitVec.toNat_ofNat, Nat.shiftLeft_eq,
    Nat.mod_mul_mod, Nat.mul_comm]

theorem placeReg_eq_wordOf (r : RegIdx) (o : Nat) : placeReg r o = wordOf (2 ^ o * r.val) :=
  wordOf_shiftLeft r.val o

theorem placeBit_eq_wordOf (b : Bool) (o : Nat) : placeBit b o = wordOf (2 ^ o * b.toNat) := by
  rw [← wordOf_shiftLeft]
  cases b <;> rfl

/-- The low bits of a value, placed at bit 0, are its remainder. -/
theorem setWidth_eq_wordOf (v : Word) (n : Nat) : (v.setWidth n).setWidth 16 = wordOf (v.toNat % 2 ^ n) := by
  apply BitVec.eq_of_toNat_eq
  rw [BitVec.toNat_setWidth, BitVec.toNat_setWidth, wordOf, BitVec.toNat_ofNat]

/-- Three registers: the operands of ADD and AND in register form. -/
theorem registers_eq_wordOf (r r' r'' : RegIdx) :
    placeReg r 9 ||| placeReg r' 6 ||| placeReg r'' 0 = wordOf (512 * r.val + 64 * r'.val + r''.val) := by
  rw [placeReg_eq_wordOf, placeReg_eq_wordOf, placeReg_eq_wordOf, or_wordOf (k := 9) (by omega) (by omega),
    or_wordOf (k := 6) (by omega) (by omega), pow_zero, one_mul]
  rfl

/-- Two registers: the operands of NOT. -/
theorem registerPair_eq_wordOf (r r' : RegIdx) :
    placeReg r 9 ||| placeReg r' 6 = wordOf (512 * r.val + 64 * r'.val) := by
  rw [placeReg_eq_wordOf, placeReg_eq_wordOf, or_wordOf (k := 9) (by omega) (by omega)]
  rfl

/-- Two registers, bit 5 and a 5-bit immediate: the operands of ADD and AND in immediate form. -/
theorem immediate_eq_wordOf (r r' : RegIdx) (v : Word) :
    placeReg r 9 ||| placeReg r' 6 ||| placeBit true 5 ||| (v.setWidth 5).setWidth 16 =
      wordOf (512 * r.val + 64 * r'.val + 32 + v.toNat % 32) := by
  rw [registerPair_eq_wordOf, placeBit_eq_wordOf, setWidth_eq_wordOf, or_wordOf (k := 6) (by omega) (by decide),
    or_wordOf (k := 5) (by simp; omega) (by omega)]
  rfl

/-- A register, a base register and a 6-bit offset: the operands of LDR and STR. -/
theorem baseOffset_eq_wordOf (r r' : RegIdx) (v : Word) :
    placeReg r 9 ||| placeReg r' 6 ||| (v.setWidth 6).setWidth 16 =
      wordOf (512 * r.val + 64 * r'.val + v.toNat % 64) := by
  rw [registerPair_eq_wordOf, setWidth_eq_wordOf, or_wordOf (k := 6) (by omega) (by omega)]
  rfl

/-- A register and a 9-bit offset: the operands of LD, LDI, LEA, ST and STI. -/
theorem registerOffset_eq_wordOf (r : RegIdx) (v : Word) :
    placeReg r 9 ||| (v.setWidth 9).setWidth 16 = wordOf (512 * r.val + v.toNat % 512) := by
  rw [placeReg_eq_wordOf, setWidth_eq_wordOf, or_wordOf (k := 9) (by omega) (by omega)]
  rfl

/-- The condition mask and a 9-bit offset: the operands of BR. -/
theorem maskOffset_eq_wordOf (n z p : Bool) (v : Word) :
    placeBit n 11 ||| placeBit z 10 ||| placeBit p 9 ||| (v.setWidth 9).setWidth 16 =
      wordOf (2048 * n.toNat + 1024 * z.toNat + 512 * p.toNat + v.toNat % 512) := by
  have hmask : n.toNat < 2 ∧ z.toNat < 2 ∧ p.toNat < 2 := ⟨n.toNat_lt, z.toNat_lt, p.toNat_lt⟩
  rw [placeBit_eq_wordOf, placeBit_eq_wordOf, placeBit_eq_wordOf, setWidth_eq_wordOf,
    or_wordOf (k := 11) (by omega) (by omega), or_wordOf (k := 10) (by omega) (by omega),
    or_wordOf (k := 9) (by omega) (by omega)]
  rfl

/-- Bit 11 and an 11-bit offset: the operands of JSR. -/
theorem callOffset_eq_wordOf (v : Word) :
    placeBit true 11 ||| (v.setWidth 11).setWidth 16 = wordOf (2048 + v.toNat % 2048) := by
  rw [placeBit_eq_wordOf, setWidth_eq_wordOf, or_wordOf (k := 11) (by simp) (by omega)]
  rfl

/-! ## The words of records (46_assembler R185) -/

/-- A list of operands resolves operand by operand (R181). -/
theorem resolveOperands_cons_ok {tab : SymTab} {a : Word} {x : Operand} {xs : List Operand} {f : FieldValue}
    {fs : List FieldValue} (hx : resolveOperand tab a x = .ok f) (hxs : resolveOperands tab a xs = .ok fs) :
    resolveOperands tab a (x :: xs) = .ok (f :: fs) :=
  bind_eq_ok_iff.mpr ⟨f, hx, bind_eq_ok_iff.mpr ⟨fs, hxs, rfl⟩⟩

/-- The word of a record as a number: the opcode's code above the number of the operands. -/
theorem encodeRecord_eq_wordOf {tab : SymTab} {a : Word} {op : OpId} {xs : List Operand} {fs : List FieldValue}
    {i : Instr} {m n : Nat} (hshape : checkShape op xs = .ok ()) (hres : resolveOperands tab a xs = .ok fs)
    (hbuild : toInstr op fs = .ok i) (hbits : operandBits i = wordOf n)
    (hcode : m / 4096 = (codeIn opcodes (operationOf op)).toNat) (hoperands : m % 4096 = n) :
    encodeRecord tab a op xs = .ok (wordOf m) := by
  rw [encodeRecord_eq_toInstr hshape hres, hbuild, Except.map, hbits, opcodeBits_eq_wordOf, ← hcode,
    or_wordOf (k := 12) (by omega) (by omega), ← hoperands, Nat.div_add_mod]

/-- The same for a record whose last operand goes to a signed field, at a value in the field's range. -/
theorem encodeRecord_signed_eq_wordOf {tab : SymTab} {a d : Word} {op : OpId} {xs : List Operand}
    {fs : List FieldValue} {width m n : Nat} {mk : BitVec width → Instr} (hwidth : 0 < width ∧ width ≤ 16)
    (hrange : -(2 ^ (width - 1) : Int) ≤ d.toInt ∧ d.toInt ≤ 2 ^ (width - 1) - 1)
    (hshape : checkShape op xs = .ok ()) (hres : resolveOperands tab a xs = .ok fs)
    (hbuild : toInstr op fs = (signedField width d).map mk) (hbits : operandBits (mk (d.setWidth width)) = wordOf n)
    (hcode : m / 4096 = (codeIn opcodes (operationOf op)).toNat) (hoperands : m % 4096 = n) :
    encodeRecord tab a op xs = .ok (wordOf m) := by
  have hfield := signedField_of_mem_range hwidth.1 hwidth.2 hrange
  rw [hfield] at hbuild
  exact encodeRecord_eq_wordOf hshape hres hbuild hbits hcode hoperands

/-- A PC-relative slot takes every operand that resolves to a value (R174). -/
theorem checkShape_of_pcRel {tab : SymTab} {a d : Word} {x : Operand} (hx : resolveOperand tab a x = .ok (.value d)) :
    (∀ n z p, checkShape (.br n z p) [x] = .ok ()) ∧ checkShape .jsr [x] = .ok () ∧
      ∀ op r, layout op = [.reg, .pcRel9] → checkShape op [.reg r, x] = .ok () := by
  cases x with
  | reg i => cases hx
  | imm v width raw => exact ⟨fun _ _ _ => rfl, rfl, fun op r hlayout => by rw [checkShape, hlayout]; rfl⟩
  | label l => exact ⟨fun _ _ _ => rfl, rfl, fun op r hlayout => by rw [checkShape, hlayout]; rfl⟩

/-- Settles O51: each record's fields, added up under its opcode. -/
theorem encodedRecordsHaveTheseForms : Obligations.EncodedRecordsHaveTheseForms := by
  intro tab a r r' r'' v width raw
  refine ⟨?add, ?and, ?not, ?jmp, ?jsrr, rfl, fun h => ⟨?addImm, ?andImm⟩, fun h => ⟨?ldr, ?str⟩,
    fun x d hx => ⟨fun h => ?offset9, fun h => ?jsr⟩, fun h => ?trap⟩
  case add =>
    exact encodeRecord_eq_wordOf rfl rfl rfl (registers_eq_wordOf r r' r'') (show _ = 1 by omega) (by omega)
  case and =>
    exact encodeRecord_eq_wordOf rfl rfl rfl (registers_eq_wordOf r r' r'') (show _ = 5 by omega) (by omega)
  case not => exact encodeRecord_eq_wordOf rfl rfl rfl (registerPair_eq_wordOf r r') (show _ = 9 by omega) (by omega)
  case jmp => exact encodeRecord_eq_wordOf rfl rfl rfl (placeReg_eq_wordOf r 6) (show _ = 12 by omega) (by omega)
  case jsrr => exact encodeRecord_eq_wordOf rfl rfl rfl (placeReg_eq_wordOf r 6) (show _ = 4 by omega) (by omega)
  case addImm =>
    exact encodeRecord_signed_eq_wordOf (by decide) h rfl rfl rfl (immediate_eq_wordOf r r' v) (show _ = 1 by omega)
      (by omega)
  case andImm =>
    exact encodeRecord_signed_eq_wordOf (by decide) h rfl rfl rfl (immediate_eq_wordOf r r' v) (show _ = 5 by omega)
      (by omega)
  case ldr =>
    exact encodeRecord_signed_eq_wordOf (by decide) h rfl rfl rfl (baseOffset_eq_wordOf r r' v) (show _ = 6 by omega)
      (by omega)
  case str =>
    exact encodeRecord_signed_eq_wordOf (by decide) h rfl rfl rfl (baseOffset_eq_wordOf r r' v) (show _ = 7 by omega)
      (by omega)
  case offset9 =>
    obtain ⟨hbr, -, hregister⟩ := checkShape_of_pcRel hx
    have hres : resolveOperands tab a [.reg r, x] = .ok [.reg r, .value d] :=
      resolveOperands_cons_ok rfl (resolveOperands_cons_ok hx rfl)
    have registerOffset {op : OpId} {mk : BitVec 9 → Instr} {m : Nat} (hlayout : layout op = [.reg, .pcRel9])
        (hbuild : toInstr op [.reg r, .value d] = (signedField 9 d).map mk)
        (hbits : operandBits (mk (d.setWidth 9)) = placeReg r 9 ||| (d.setWidth 9).setWidth 16)
        (hcode : m / 4096 = (codeIn opcodes (operationOf op)).toNat)
        (hoperands : m % 4096 = 512 * r.val + d.toNat % 512) :
        encodeRecord tab a op [.reg r, x] = .ok (wordOf m) :=
      encodeRecord_signed_eq_wordOf (by decide) h (hregister op r hlayout) hres hbuild
        (hbits.trans (registerOffset_eq_wordOf r d)) hcode hoperands
    refine ⟨fun n z p => ?_, ?_, ?_, ?_, ?_, ?_⟩
    · have hmask : n.toNat < 2 ∧ z.toNat < 2 ∧ p.toNat < 2 := ⟨n.toNat_lt, z.toNat_lt, p.toNat_lt⟩
      exact encodeRecord_signed_eq_wordOf (by decide) h (hbr n z p) (resolveOperands_cons_ok hx rfl) rfl
        (maskOffset_eq_wordOf n z p d) (show _ = 0 by omega) (by omega)
    · exact registerOffset rfl rfl rfl (show _ = 2 by omega) (by omega)
    · exact registerOffset rfl rfl rfl (show _ = 10 by omega) (by omega)
    · exact registerOffset rfl rfl rfl (show _ = 14 by omega) (by omega)
    · exact registerOffset rfl rfl rfl (show _ = 3 by omega) (by omega)
    · exact registerOffset rfl rfl rfl (show _ = 11 by omega) (by omega)
  case jsr =>
    obtain ⟨-, hjsr, -⟩ := checkShape_of_pcRel hx
    exact encodeRecord_signed_eq_wordOf (by decide) h hjsr (resolveOperands_cons_ok hx rfl) rfl
      (callOffset_eq_wordOf d) (show _ = 4 by omega) (by omega)
  case trap =>
    exact encodeRecord_eq_wordOf rfl rfl (congrArg (Except.map Instr.trap) (vectorField_of_le h))
      (setWidth_eq_wordOf v 8) (show _ = 15 by omega) (by omega)

end Sys2Proof.Proofs

namespace Sys2Proof.Proofs

open Sys2Proof.Machine Sys2Proof.Safety Sys2Proof.Laws

/-! ## The instruction that an encoded record is (46_assembler R192) -/

/-- The word of a record decodes to what the builder makes of the record, an instruction of its operation. -/
theorem decode_of_encodeRecord {tab : SymTab} {a w : Word} {op : OpId} {xs : List Operand}
    (h : encodeRecord tab a op xs = .ok w) :
    ∃ fs i, resolveOperands tab a xs = .ok fs ∧ toInstr op fs = .ok i ∧ decode w = i ∧
      i.operation = some (operationOf op) := by
  obtain ⟨⟨⟩, hshape, h⟩ := bind_eq_ok_iff.mp h
  obtain ⟨fs, hres, h⟩ := bind_eq_ok_iff.mp h
  obtain ⟨i, hi, h⟩ := bind_eq_ok_iff.mp h
  cases h
  have hop : i.operation = some (operationOf op) := by
    rcases toInstr_of_checkShape hshape hres with ⟨i', hi', hop⟩ | ⟨n, v, lo, hi', herror⟩
    · cases hi'.symm.trans hi
      exact hop
    · cases herror.symm.trans hi
  refine ⟨fs, i, hres, hi, decode_of_encode ?_, hop⟩
  rw [encode, hop, Option.map_some]

/-- A record whose last operand went to a signed field decodes to the instruction of that field, and the field
sign-extends to the operand's value. -/
theorem decode_of_encodeRecord_signed {tab : SymTab} {a w d : Word} {op : OpId} {xs : List Operand}
    {fs : List FieldValue} {n : Nat} {mk : BitVec n → Instr} (hres : resolveOperands tab a xs = .ok fs)
    (hbuild : toInstr op fs = (signedField n d).map mk) (h : encodeRecord tab a op xs = .ok w) :
    ∃ f : BitVec n, decode w = mk f ∧ sext f = d := by
  obtain ⟨fs', i, hres', hi, hdecode, -⟩ := decode_of_encodeRecord h
  cases hres'.symm.trans hres
  rw [hbuild] at hi
  rcases signedField_cases n d with ⟨hsext, hok⟩ | ⟨-, herror⟩
  · rw [hok] at hi
    cases hi
    exact ⟨_, hdecode, hsext⟩
  · rw [herror] at hi
    cases hi

/-- A step runs what the word at the pc decodes to. -/
theorem step_of_decode {s : State} {w : Word} {i : Instr} (hw : s.readMem s.pc = w) (hi : decode w = i) :
    step s = exec i s := by
  rw [← hi, ← hw]
  rfl

/-- A step at a record whose last operand went to a signed field runs the instruction of that field. -/
theorem step_of_encodeRecord_signed {tab : SymTab} {a w d : Word} {op : OpId} {xs : List Operand}
    {fs : List FieldValue} {n : Nat} {mk : BitVec n → Instr} {s : State} (hw : s.readMem s.pc = w)
    (hres : resolveOperands tab a xs = .ok fs) (hbuild : toInstr op fs = (signedField n d).map mk)
    (h : encodeRecord tab a op xs = .ok w) : ∃ f : BitVec n, step s = exec (mk f) s ∧ sext f = d := by
  obtain ⟨f, hf, hsext⟩ := decode_of_encodeRecord_signed hres hbuild h
  exact ⟨f, step_of_decode hw hf, hsext⟩

/-- The trap vector is zero-extended, and a value that it accepts is its own zero extension. -/
theorem zext_vectorField {v : Word} {f : BitVec 8} (h : vectorField v = .ok f) : zext f = v := by
  rcases vectorField_cases v with ⟨hok, hrange⟩ | ⟨herror, -⟩
  · have hle := (toInt_mem_vectorRange_iff v).mp hrange
    cases hok.symm.trans h
    apply BitVec.eq_of_toNat_eq
    rw [zext, BitVec.toNat_setWidth, BitVec.toNat_setWidth]
    omega
  · cases herror.symm.trans h

/-- A TRAP record decodes to a vector that zero-extends to the operand's value. -/
theorem decode_of_encodeRecord_trap {tab : SymTab} {a w v : Word} {width : Nat} {raw : Bool}
    (h : encodeRecord tab a .trap [.imm v width raw] = .ok w) : ∃ f, decode w = .trap f ∧ zext f = v := by
  obtain ⟨fs, i, hres, hi, hdecode, -⟩ := decode_of_encodeRecord h
  cases hres
  have hbuild : (vectorField v).map Instr.trap = .ok i := hi
  cases hv : vectorField v with
  | error kind =>
    rw [hv] at hbuild
    cases hbuild
  | ok f =>
    rw [hv] at hbuild
    cases hbuild
    exact ⟨f, hdecode, zext_vectorField hv⟩

/-! ## Labels and immediates as the step sees them (46_assembler R182, R192) -/

/-- A label resolves to its distance from the word after the record's. -/
theorem resolveOperand_label {tab : SymTab} {l : LabelName} {target : Word} (s : State)
    (hl : lookupLabel tab l = some target) :
    resolveOperand tab s.pc (.label l) = .ok (.value (target - s.incPc)) := by
  rw [resolveOperand, hl]
  rfl

/-- A field that holds a label's distance reaches the label. -/
theorem pcRelative_of_sext {s : State} {n : Nat} {f : BitVec n} {target : Word} (hf : sext f = target - s.incPc) :
    s.pcRelative f = target := by
  rw [State.pcRelative, hf, add_sub_cancel]

theorem writeResult_reads_result (s : State) (dr : RegIdx) (v : Word) : (s.writeResult dr v).readReg dr = v := by
  rw [writeResult_readReg, if_pos rfl]

theorem linkAndJump_reads_link (s : State) (target : Word) : (s.linkAndJump target).readReg 7 = s.pc + 1 := by
  rw [linkAndJump_readReg, if_pos (show 7 = linkReg from rfl)]
  rfl

theorem storeWord_reads_stored (s : State) (a v : Word) :
    (s.storeWord a v).readMem a = v ∧ MemKept s (s.storeWord a v) [a] := by
  obtain ⟨hread, hkept, -⟩ := storeWord_stored s a v
  exact ⟨hread, hkept⟩

/-- The host's step at a word that decodes to LD, in either order of JSRR (40_fetch_decode R106). -/
theorem hostStep_of_decode_ld {s : State} {w : Word} {r : RegIdx} {f : BitVec 9} (order : LinkOrder)
    (hw : s.readMem s.pc = w) (hf : decode w = .ld r f) :
    hostStep order s = (.applied (some (s.pcRelative f)), s.writeResult r (s.readMem (s.pcRelative f))) := by
  rw [hostStep, stepIn, State.fetch, hw, hf]
  rfl

/-- Settles O53: the field of a label holds the label's distance, which the step adds to the next pc. -/
theorem assembledLabelsReachTheirAddress : Obligations.AssembledLabelsReachTheirAddress := by
  rintro tab _ target w l r s hl rfl hw
  have hx := resolveOperand_label s hl
  have hlabel : resolveOperands tab s.pc [.label l] = .ok [.value (target - s.incPc)] := resolveOperands_cons_ok hx rfl
  have hregister := resolveOperands_cons_ok (show resolveOperand tab s.pc (.reg r) = _ from rfl) hlabel
  refine ⟨fun n z p h => ?br, fun h => ?jsr, fun h => ?ld, fun h => ?ldi, fun h => ?lea, fun h => ?st, fun h => ?sti⟩
  case br =>
    obtain ⟨f, hstep, hf⟩ := step_of_encodeRecord_signed hw hlabel rfl h
    obtain rfl := pcRelative_of_sext hf
    exact ⟨_, hstep, rfl⟩
  case jsr =>
    obtain ⟨f, hstep, hf⟩ := step_of_encodeRecord_signed hw hlabel rfl h
    exact ⟨_, hstep, pcRelative_of_sext hf, linkAndJump_reads_link s _⟩
  case ld =>
    obtain ⟨f, hdecode, hf⟩ := decode_of_encodeRecord_signed hregister rfl h
    obtain rfl := pcRelative_of_sext hf
    exact ⟨_, step_of_decode hw hdecode, writeResult_reads_result s r _,
      fun order => hostStep_of_decode_ld order hw hdecode⟩
  case ldi | lea =>
    obtain ⟨f, hstep, hf⟩ := step_of_encodeRecord_signed hw hregister rfl h
    obtain rfl := pcRelative_of_sext hf
    exact ⟨_, hstep, writeResult_reads_result s r _⟩
  case st | sti =>
    obtain ⟨f, hstep, hf⟩ := step_of_encodeRecord_signed hw hregister rfl h
    obtain rfl := pcRelative_of_sext hf
    exact ⟨_, hstep, storeWord_reads_stored s _ _⟩

/-- Settles O54: every field extends back to its immediate, by the sign or, for the trap vector, by zeros. -/
theorem assembledImmediatesExecuteAsGiven : Obligations.AssembledImmediatesExecuteAsGiven := by
  rintro tab _ w v width raw r r' s rfl hw
  refine ⟨fun h => ?add, fun h => ?and, fun h => ?ldr, fun h => ?str, fun n z p h => ?br, fun h => ?ld, fun h => ?ldi,
    fun h => ?lea, fun h => ?st, fun h => ?sti, fun h => ?jsr, fun h => ?trap⟩
  case add | and | ldr | ld | ldi | lea =>
    obtain ⟨f, hstep, rfl⟩ := step_of_encodeRecord_signed hw rfl rfl h
    exact ⟨_, hstep, writeResult_reads_result s r _⟩
  case str | st | sti =>
    obtain ⟨f, hstep, rfl⟩ := step_of_encodeRecord_signed hw rfl rfl h
    exact ⟨_, hstep, storeWord_reads_stored s _ _⟩
  case br =>
    obtain ⟨f, hstep, rfl⟩ := step_of_encodeRecord_signed hw rfl rfl h
    exact ⟨_, hstep, rfl⟩
  case jsr =>
    obtain ⟨f, hstep, rfl⟩ := step_of_encodeRecord_signed hw rfl rfl h
    exact ⟨_, hstep, rfl, linkAndJump_reads_link s _⟩
  case trap =>
    obtain ⟨f, hdecode, rfl⟩ := decode_of_encodeRecord_trap h
    exact ⟨_, step_of_decode hw hdecode, rfl⟩

end Sys2Proof.Proofs

namespace Sys2Proof.Proofs

open Sys2Proof.Machine Sys2Proof.Safety Sys2Proof.Laws

/-! ## Binding labels (46_assembler R177) -/

/-- A record binds where its label is new or the policy lets it replace. -/
theorem bindLabelOf_of_free {policy : DupLabelPolicy} {r : Record} {tab : SymTab} (a : Word)
    (hfree : policy = .lastWins ∨ ∀ l, r.label = some l → lookupLabel tab l = none) :
    ∃ tab', bindLabelOf policy r a tab = .ok tab' := by
  unfold bindLabelOf
  cases hlabel : r.label with
  | none => exact ⟨tab, rfl⟩
  | some l =>
    refine ⟨setLabel tab l a, ?_⟩
    cases policy with
    | lastWins => rfl
    | error =>
      have hnone : lookupLabel tab l = none := hfree.resolve_left DupLabelPolicy.noConfusion l hlabel
      simp [hnone]

/-- Under the policy ERROR a label that is defined already is an error at the record. -/
theorem bindLabelOf_of_defined {r : Record} {l : LabelName} {a : Word} {tab : SymTab} (hlabel : r.label = some l)
    (hdefined : lookupLabel tab l ≠ none) :
    bindLabelOf .error r a tab = .error (asmErrorAt r (.duplicateLabel l)) := by
  obtain ⟨b, hb⟩ := Option.ne_none_iff_exists'.mp hdefined
  simp [bindLabelOf, hlabel, hb]

/-- A record that binds changes what the table gives its own label, and nothing else. -/
theorem lookupLabel_of_bind {policy : DupLabelPolicy} {r : Record} {a : Word} {tab tab' : SymTab}
    (h : bindLabelOf policy r a tab = .ok tab') (m : LabelName) :
    lookupLabel tab' m = if r.label = some m then some a else lookupLabel tab m := by
  rcases bindLabelOf_ok h with ⟨hlabel, rfl⟩ | ⟨l, hlabel, rfl⟩
  · simp [hlabel]
  · simp only [hlabel, lookupLabel_setLabel, Option.some_inj, eq_comm]

/-- Settles O56: a label that is defined already meets the policy. -/
theorem bindingADefinedLabelFollowsThePolicy : Obligations.BindingADefinedLabelFollowsThePolicy := by
  refine fun policy r l a tab hlabel => ⟨fun hpolicy hdefined => ?defined, fun hfree => ?free⟩
  case defined =>
    subst hpolicy
    exact bindLabelOf_of_defined hlabel hdefined
  case free =>
    have hnew : policy = .lastWins ∨ ∀ m, r.label = some m → lookupLabel tab m = none :=
      hfree.imp_right fun hnone m hm => Option.some.inj (hlabel.symm.trans hm) ▸ hnone
    obtain ⟨tab', hbind⟩ := bindLabelOf_of_free a hnew
    refine ⟨tab', hbind, ?_, fun m hm => ?_⟩
    · rw [lookupLabel_of_bind hbind, if_pos hlabel]
    · rw [lookupLabel_of_bind hbind, if_neg fun h => hm (Option.some.inj (h.symm.trans hlabel))]

/-! ## Finding the origin (46_assembler R175, decision D19) -/

/-- A record of the origin directive is not blank. -/
theorem recordIsBlank_of_origin {r : Record} {o : Word} (h : r.body = .origin o) : recordIsBlank r = false := by
  simp [recordIsBlank, h]

theorem findOrigin_cons_blank {r : Record} (rest : List Record) (h : recordIsBlank r = true) :
    findOrigin (r :: rest) = findOrigin rest :=
  if_pos h

theorem findOrigin_cons_origin {r : Record} {o : Word} (rest : List Record) (h : r.body = .origin o) :
    findOrigin (r :: rest) = .ok (r, o, rest) := by
  simp [findOrigin, recordIsBlank_of_origin h, h]

/-- A first entry that is no origin. -/
theorem findOrigin_cons_other {r : Record} (rest : List Record) (hentry : recordIsBlank r = false)
    (h : ∀ o, r.body ≠ .origin o) : findOrigin (r :: rest) = .error (asmErrorAt r .missingOrigin) := by
  rw [findOrigin, hentry]
  cases hbody : r.body with
  | origin o => exact absurd hbody (h o)
  | instr op operands => simp
  | noWord => simp

theorem findOrigin_append_blanks {blanks : List Record} (rest : List Record)
    (h : ∀ r ∈ blanks, recordIsBlank r = true) : findOrigin (blanks ++ rest) = findOrigin rest := by
  induction blanks with
  | nil => rfl
  | cons b blanks ih =>
    rw [List.cons_append, findOrigin_cons_blank _ (h b List.mem_cons_self)]
    exact ih fun r hr => h r (List.mem_cons_of_mem _ hr)

/-- Everything that finding the origin can answer: the origin after blank records, `MissingOrigin` at the first entry,
or `MissingOrigin` where there is no entry. -/
theorem findOrigin_cases (rs : List Record) :
    (∃ blanks r o rest, rs = blanks ++ r :: rest ∧ (∀ b ∈ blanks, recordIsBlank b = true) ∧ r.body = .origin o ∧
      findOrigin rs = .ok (r, o, rest)) ∨
    (∃ r ∈ rs, findOrigin rs = .error (asmErrorAt r .missingOrigin)) ∨
    ((∀ b ∈ rs, recordIsBlank b = true) ∧ findOrigin rs = findOrigin []) := by
  induction rs with
  | nil => exact .inr (.inr ⟨by simp, rfl⟩)
  | cons r rest ih =>
    cases hblank : recordIsBlank r with
    | false =>
      by_cases horigin : ∃ o, r.body = .origin o
      · obtain ⟨o, hbody⟩ := horigin
        exact .inl ⟨[], r, o, rest, rfl, by simp, hbody, findOrigin_cons_origin rest hbody⟩
      · exact .inr (.inl ⟨r, List.mem_cons_self, findOrigin_cons_other rest hblank (not_exists.mp horigin)⟩)
    | true =>
      rw [findOrigin_cons_blank rest hblank]
      rcases ih with ⟨blanks, r', o, rest', rfl, hblanks, hfound⟩ | ⟨q, hq, herror⟩ | ⟨hblanks, herror⟩
      · exact .inl ⟨r :: blanks, r', o, rest', rfl, List.forall_mem_cons.mpr ⟨hblank, hblanks⟩, hfound⟩
      · exact .inr (.inl ⟨q, List.mem_cons_of_mem _ hq, herror⟩)
      · exact .inr (.inr ⟨List.forall_mem_cons.mpr ⟨hblank, hblanks⟩, herror⟩)

/-! ## The walk of pass 1 (46_assembler R176) -/

/-- What a walk that answers has done: a record without a word binds its label, an instruction also takes an
address. -/
inductive Walk (policy : DupLabelPolicy) (o : Word) : Nat → SymTab → List Record → SymTab → List Placed → Prop where
  | done (k : Nat) (tab : SymTab) : Walk policy o k tab [] tab []
  | noWord {k : Nat} {tab tab' final : SymTab} {r : Record} {rest : List Record} {placed : List Placed} :
      r.body = .noWord → bindLabelOf policy r (wordAddress o k) tab = .ok tab' →
      Walk policy o k tab' rest final placed → Walk policy o k tab (r :: rest) final placed
  | instr {k : Nat} {tab tab' final : SymTab} {r : Record} {rest : List Record} {placed : List Placed} {op : OpId}
      {operands : List Operand} :
      r.body = .instr op operands → bindLabelOf policy r (wordAddress o k) tab = .ok tab' →
      Walk policy o (k + 1) tab' rest final placed →
      Walk policy o k tab (r :: rest) final (⟨wordAddress o k, r, op, operands⟩ :: placed)

theorem walk_of_collect {policy : DupLabelPolicy} {o : Word} {k : Nat} {tab final : SymTab} {rs : List Record}
    {placed : List Placed} (h : collect policy o k tab rs = .ok (final, placed)) :
    Walk policy o k tab rs final placed := by
  induction rs generalizing k tab placed with
  | nil =>
    cases h
    exact .done _ _
  | cons r rest ih =>
    unfold collect at h
    split at h
    next => cases h
    next hbody =>
      obtain ⟨tab', hbind, h⟩ := bind_eq_ok_iff.mp h
      exact .noWord hbody hbind (ih h)
    next op operands hbody =>
      obtain ⟨tab', hbind, h⟩ := bind_eq_ok_iff.mp h
      obtain ⟨⟨final', placed'⟩, hrest, h⟩ := bind_eq_ok_iff.mp h
      cases h
      exact .instr hbody hbind (ih hrest)

/-- What pass 1 has done where it answers. -/
theorem pass1_ok {policy : DupLabelPolicy} {rs : List Record} {o : Word} {tab : SymTab} {placed : List Placed}
    (h : pass1 policy rs = .ok (o, tab, placed)) :
    ∃ r rest tab₀, findOrigin rs = .ok (r, o, rest) ∧ bindLabelOf policy r o [] = .ok tab₀ ∧
      Walk policy o 0 tab₀ rest tab placed := by
  obtain ⟨⟨r, o', rest⟩, hfound, h⟩ := bind_eq_ok_iff.mp h
  obtain ⟨tab₀, hbind, h⟩ := bind_eq_ok_iff.mp h
  obtain ⟨⟨final, placed'⟩, hwalk, h⟩ := bind_eq_ok_iff.mp h
  cases h
  exact ⟨r, rest, tab₀, hfound, hbind, walk_of_collect hwalk⟩

/-! ## Counting the words -/

theorem instrCount_cons_instr {r : Record} {op : OpId} {operands : List Operand} (rest : List Record)
    (h : r.body = .instr op operands) : instrCount (r :: rest) = instrCount rest + 1 := by
  simp [instrCount, h]

theorem instrCount_cons_noWord {r : Record} (rest : List Record) (h : r.body = .noWord) :
    instrCount (r :: rest) = instrCount rest := by
  simp [instrCount, h]

theorem instrCount_cons_origin {r : Record} {o : Word} (rest : List Record) (h : r.body = .origin o) :
    instrCount (r :: rest) = instrCount rest := by
  simp [instrCount, h]

section

variable {policy : DupLabelPolicy} {o : Word} {k : Nat} {tab final : SymTab} {rs : List Record} {placed : List Placed}
  (h : Walk policy o k tab rs final placed)
include h

theorem walk_placed_length : placed.length = instrCount rs := by
  induction h with
  | done k tab => rfl
  | noWord hbody hbind hwalk ih => rw [ih, instrCount_cons_noWord _ hbody]
  | instr hbody hbind hwalk ih => rw [List.length_cons, ih, instrCount_cons_instr _ hbody]

/-- The j-th word placed stands at the j-th address, with the operation and operands of its record. -/
theorem walk_placed_getElem {j : Nat} (hj : j < placed.length) :
    placed[j].addr = wordAddress o (k + j) ∧ placed[j].record.body = .instr placed[j].op placed[j].operands := by
  induction h generalizing j with
  | done k tab => exact absurd hj (Nat.not_lt_zero j)
  | noWord hbody hbind hwalk ih => exact ih hj
  | @instr k tab tab' final r rest placed op operands hbody hbind hwalk ih =>
    cases j with
    | zero => exact ⟨rfl, hbody⟩
    | succ j =>
      rw [← Nat.add_assoc, Nat.add_right_comm]
      exact ih (Nat.lt_of_succ_lt_succ hj)

/-- The records placed are the instruction records, in order. -/
theorem walk_placed_records : placed.map Placed.record = rs.filter fun r => decide (instrCount [r] = 1) := by
  induction h with
  | done k tab => rfl
  | noWord hbody hbind hwalk ih =>
    rw [ih, List.filter_cons_of_neg]
    rw [instrCount_cons_noWord [] hbody]
    decide
  | instr hbody hbind hwalk ih =>
    rw [List.map_cons, ih, List.filter_cons_of_pos]
    exact decide_eq_true (instrCount_cons_instr [] hbody)

/-- A label that no record of the walk carries keeps what the table gave it. -/
theorem walk_lookup_of_not_carried {l : LabelName} (hl : ∀ r ∈ rs, r.label ≠ some l) :
    lookupLabel final l = lookupLabel tab l := by
  induction h with
  | done k tab => rfl
  | noWord hbody hbind hwalk ih | instr hbody hbind hwalk ih =>
    obtain ⟨hne, hrest⟩ := List.forall_mem_cons.mp hl
    rw [ih hrest, lookupLabel_of_bind hbind, if_neg hne]

/-- A label is bound, at its last definition, to the address of the next word. -/
theorem walk_lookup_of_last {j : Nat} (hj : j < rs.length) {l : LabelName} (hl : rs[j].label = some l)
    (hlast : ∀ r ∈ rs.drop (j + 1), r.label ≠ some l) :
    lookupLabel final l = some (wordAddress o (k + instrCount (rs.take j))) := by
  induction h generalizing j with
  | done k tab => exact absurd hj (Nat.not_lt_zero j)
  | noWord hbody hbind hwalk ih =>
    cases j with
    | zero =>
      rw [walk_lookup_of_not_carried hwalk hlast, lookupLabel_of_bind hbind]
      exact if_pos hl
    | succ j =>
      rw [List.take_succ_cons, instrCount_cons_noWord _ hbody]
      exact ih (Nat.lt_of_succ_lt_succ hj) hl hlast
  | instr hbody hbind hwalk ih =>
    cases j with
    | zero =>
      rw [walk_lookup_of_not_carried hwalk hlast, lookupLabel_of_bind hbind]
      exact if_pos hl
    | succ j =>
      rw [List.take_succ_cons, instrCount_cons_instr _ hbody, ← Nat.add_assoc, Nat.add_right_comm]
      exact ih (Nat.lt_of_succ_lt_succ hj) hl hlast

end

/-- The address of the k-th word is the origin plus k, modulo 2^16. -/
theorem isMod_wordAddress (o : Word) (k : Nat) : IsMod (wordAddress o k) ((o.toNat : Int) + k) := by
  unfold IsMod
  rw [wordAddress, BitVec.toNat_add, BitVec.toNat_ofNat]
  omega

/-- Settles O55: each clause is what the walk has done after the blank records and the origin. -/
theorem passOneGivesEveryWordAndLabelItsAddress : Obligations.PassOneGivesEveryWordAndLabelItsAddress := by
  intro policy blanks r₀ rest o o' tab placed hblanks hbody h
  obtain ⟨r, rest', tab₀, hfound, hbind, hwalk⟩ := pass1_ok h
  rw [findOrigin_append_blanks _ hblanks, findOrigin_cons_origin _ hbody] at hfound
  cases hfound
  refine ⟨rfl, walk_placed_length hwalk, fun k hk => ?words, walk_placed_records hwalk,
    fun j hj l hl hlast => ⟨_, walk_lookup_of_last hwalk hj hl hlast, ?label⟩, fun l hl hrest => ?origin⟩
  case words =>
    obtain ⟨haddr, hrecord⟩ := walk_placed_getElem hwalk hk
    rw [haddr, Nat.zero_add]
    exact ⟨isMod_wordAddress o k, hrecord⟩
  case label =>
    rw [Nat.zero_add]
    exact isMod_wordAddress o _
  case origin => rw [walk_lookup_of_not_carried hwalk hrest, lookupLabel_of_bind hbind, if_pos hl]

end Sys2Proof.Proofs

namespace Sys2Proof.Proofs

open Sys2Proof.Machine Sys2Proof.Safety Sys2Proof.Laws

/-! ## Pass 1 before pass 2 (46_assembler R178, R179, R190) -/

theorem assemble_of_pass1_error {policy : DupLabelPolicy} {rs : List Record} {e : AsmError}
    (h : pass1 policy rs = .error e) : assemble policy rs = .error e :=
  bind_eq_error_iff.mpr (.inl h)

/-- The first record of pass 2 that does not encode is its error. -/
theorem pass2_append_error {tab : SymTab} {before : List Placed} {q : Placed} {kind : AsmErrorKind}
    (after : List Placed) (hbefore : ∀ b ∈ before, ∃ w, encodeRecord tab b.addr b.op b.operands = .ok w)
    (hq : encodeRecord tab q.addr q.op q.operands = .error kind) :
    pass2 tab (before ++ q :: after) = .error (asmErrorAt q.record kind) := by
  induction before with
  | nil => rw [List.nil_append, pass2, hq]
  | cons b before ih =>
    obtain ⟨⟨w, hw⟩, hrest⟩ := List.forall_mem_cons.mp hbefore
    rw [List.cons_append, pass2, hw, ih hrest]
    rfl

/-- Settles O58: the two passes in sequence, and pass 2 record by record. -/
theorem firstErrorOfTheFirstPassWins : Obligations.FirstErrorOfTheFirstPassWins :=
  ⟨fun _ _ _ => assemble_of_pass1_error, fun _ _ _ _ _ _ after _ hpass1 hbefore hq =>
    bind_eq_error_iff.mpr (.inr ⟨_, hpass1, bind_eq_error_iff.mpr (.inl (pass2_append_error after hbefore hq))⟩)⟩

/-! ## Errors after the origin (46_assembler R175 to R177, decisions D19, D24) -/

theorem collect_cons_origin {policy : DupLabelPolicy} {r : Record} {o' : Word} (o : Word) (k : Nat) (tab : SymTab)
    (rest : List Record) (h : r.body = .origin o') :
    collect policy o k tab (r :: rest) = .error (asmErrorAt r .duplicateOrigin) := by
  rw [collect, h]

/-- A record that does not bind ends the walk. -/
theorem collect_cons_of_bind_error {policy : DupLabelPolicy} {r : Record} {o : Word} {k : Nat} {tab : SymTab}
    {e : AsmError} (rest : List Record) (hbody : ∀ x, r.body ≠ .origin x)
    (h : bindLabelOf policy r (wordAddress o k) tab = .error e) : collect policy o k tab (r :: rest) = .error e := by
  unfold collect
  split
  next x hx => exact absurd hx (hbody x)
  next => exact bind_eq_error_iff.mpr (.inl h)
  next => exact bind_eq_error_iff.mpr (.inl h)

/-- A walk fails where it does after a record that binds. -/
theorem collect_cons_of_rest_error {policy : DupLabelPolicy} {r : Record} {o : Word} {k : Nat} {tab tab' : SymTab}
    (hbody : ∀ x, r.body ≠ .origin x) (h : bindLabelOf policy r (wordAddress o k) tab = .ok tab') :
    ∃ k', ∀ rest e, collect policy o k' tab' rest = .error e → collect policy o k tab (r :: rest) = .error e := by
  cases hr : r.body with
  | origin x => exact absurd hr (hbody x)
  | noWord =>
    refine ⟨k, fun rest e he => ?_⟩
    rw [collect, hr]
    exact bind_eq_error_iff.mpr (.inr ⟨tab', h, he⟩)
  | instr op operands =>
    refine ⟨k + 1, fun rest e he => ?_⟩
    rw [collect, hr]
    exact bind_eq_error_iff.mpr (.inr ⟨tab', h, bind_eq_error_iff.mpr (.inl he)⟩)

/-- Every record of a list finds its label free when the list is walked. -/
def LabelsFree (policy : DupLabelPolicy) (tab : SymTab) (rs : List Record) : Prop :=
  policy = .lastWins ∨
    ((rs.filterMap Record.label).Nodup ∧ ∀ l ∈ rs.filterMap Record.label, lookupLabel tab l = none)

theorem labelsFree_empty {policy : DupLabelPolicy} {rs : List Record}
    (h : policy = .lastWins ∨ (rs.filterMap Record.label).Nodup) : LabelsFree policy [] rs :=
  h.imp_right fun hnodup => ⟨hnodup, fun _ _ => rfl⟩

/-- The first of such records binds, and the others still find their labels free. -/
theorem bind_of_labelsFree {policy : DupLabelPolicy} {tab : SymTab} {r : Record} {rs : List Record} (a : Word)
    (h : LabelsFree policy tab (r :: rs)) :
    ∃ tab', bindLabelOf policy r a tab = .ok tab' ∧ LabelsFree policy tab' rs := by
  rcases h with hlast | ⟨hnodup, hnone⟩
  · obtain ⟨tab', hbind⟩ := bindLabelOf_of_free (r := r) (tab := tab) a (.inl hlast)
    exact ⟨tab', hbind, .inl hlast⟩
  · have hfree : ∀ l, r.label = some l → lookupLabel tab l = none := fun l hl =>
      hnone l (List.mem_filterMap.mpr ⟨r, List.mem_cons_self, hl⟩)
    obtain ⟨tab', hbind⟩ := bindLabelOf_of_free a (.inr hfree)
    have hother : ∀ l ∈ rs.filterMap Record.label, r.label ≠ some l := by
      intro l hl hr
      rw [List.filterMap_cons_some hr] at hnodup
      exact (List.nodup_cons.mp hnodup).1 hl
    have hsub : (rs.filterMap Record.label).Sublist ((r :: rs).filterMap Record.label) :=
      (List.sublist_cons_self r rs).filterMap Record.label
    refine ⟨tab', hbind, .inr ⟨hnodup.sublist hsub, fun l hl => ?_⟩⟩
    rw [lookupLabel_of_bind hbind, if_neg (hother l hl)]
    exact hnone l (hsub.subset hl)

/-- A record that binds defines its label, and undefines none. -/
theorem defined_or_carried_of_bind {policy : DupLabelPolicy} {r : Record} {rs : List Record} {a : Word}
    {tab tab' : SymTab} {l : LabelName} (hbind : bindLabelOf policy r a tab = .ok tab')
    (h : lookupLabel tab l ≠ none ∨ l ∈ (r :: rs).filterMap Record.label) :
    lookupLabel tab' l ≠ none ∨ l ∈ rs.filterMap Record.label := by
  rw [lookupLabel_of_bind hbind]
  split
  next => exact .inl (Option.some_ne_none a)
  next hother =>
    refine h.imp_right fun hl => ?_
    obtain ⟨q, hq, hlabel⟩ := List.mem_filterMap.mp hl
    rcases List.mem_cons.mp hq with rfl | hq
    · exact absurd hlabel hother
    · exact List.mem_filterMap.mpr ⟨q, hq, hlabel⟩

/-- A walk gets past records whose labels are free, with their labels defined, and fails where it does after them. -/
theorem collect_append_of_labelsFree {policy : DupLabelPolicy} {before : List Record} (o : Word) {tab : SymTab}
    (k : Nat) (hbody : ∀ q ∈ before, ∀ x, q.body ≠ .origin x) (hfree : LabelsFree policy tab before) :
    ∃ k' tab', (∀ l, lookupLabel tab l ≠ none ∨ l ∈ before.filterMap Record.label → lookupLabel tab' l ≠ none) ∧
      ∀ rest e, collect policy o k' tab' rest = .error e → collect policy o k tab (before ++ rest) = .error e := by
  induction before generalizing tab k with
  | nil => exact ⟨k, tab, fun l hl => hl.resolve_right List.not_mem_nil, fun rest e he => he⟩
  | cons r before ih =>
    obtain ⟨hr, hbefore⟩ := List.forall_mem_cons.mp hbody
    obtain ⟨tab₁, hbind, hfree₁⟩ := bind_of_labelsFree (wordAddress o k) hfree
    obtain ⟨k₁, hfirst⟩ := collect_cons_of_rest_error hr hbind
    obtain ⟨k', tab', hdefined, hrest⟩ := ih k₁ hbefore hfree₁
    exact ⟨k', tab', fun l hl => hdefined l (defined_or_carried_of_bind hbind hl),
      fun rest e he => hfirst _ e (hrest rest e he)⟩

/-- An origin first and then records whose labels are free: the error is that of the records after them, and their
labels are defined by then. -/
theorem assemble_append_of_labelsFree {policy : DupLabelPolicy} {r₀ : Record} {o : Word} {before : List Record}
    (h₀ : r₀.body = .origin o) (hbody : ∀ q ∈ before, ∀ x, q.body ≠ .origin x)
    (hfree : LabelsFree policy [] (r₀ :: before)) :
    ∃ k tab, (∀ l ∈ (r₀ :: before).filterMap Record.label, lookupLabel tab l ≠ none) ∧
      ∀ rest e, collect policy o k tab rest = .error e → assemble policy (r₀ :: before ++ rest) = .error e := by
  obtain ⟨tab₀, hbind, hfree₀⟩ := bind_of_labelsFree o hfree
  obtain ⟨k, tab, hdefined, hrest⟩ := collect_append_of_labelsFree o 0 hbody hfree₀
  refine ⟨k, tab, fun l hl => hdefined l (defined_or_carried_of_bind hbind (.inr hl)),
    fun rest e he => assemble_of_pass1_error ?_⟩
  refine bind_eq_error_iff.mpr (.inr ⟨_, findOrigin_cons_origin (before ++ rest) h₀, ?_⟩)
  refine bind_eq_error_iff.mpr (.inr ⟨tab₀, hbind, ?_⟩)
  exact bind_eq_error_iff.mpr (.inl (hrest rest e he))

/-- Settles O57: the records before the one at fault bind, so the walk meets it. -/
theorem originIsRequiredFirstAndOnce : Obligations.OriginIsRequiredFirstAndOnce := by
  refine ⟨fun policy r rest hblank => ?blank, fun policy r rest hentry hbody => ?missing,
    fun policy => ⟨_, rfl, rfl, rfl, rfl⟩, fun policy r₀ o o' mid r rest h₀ hmid hr => ⟨fun hfree => ?origin,
      fun before q after l hpolicy hsplit hq hl hnodup => ?label⟩⟩
  case blank => rw [assemble, assemble, pass1, pass1, findOrigin_cons_blank rest hblank]
  case missing =>
    exact assemble_of_pass1_error (bind_eq_error_iff.mpr (.inl (findOrigin_cons_other rest hentry hbody)))
  case origin =>
    obtain ⟨k, tab, -, hrest⟩ := assemble_append_of_labelsFree h₀ hmid (labelsFree_empty hfree)
    exact hrest _ _ (collect_cons_origin o k tab rest hr)
  case label =>
    subst hpolicy
    cases before with
    | nil => cases hl
    | cons b before =>
      rw [hsplit, List.append_assoc]
      obtain ⟨rfl, rfl⟩ := List.cons.inj hsplit
      obtain ⟨hbefore, hqbody⟩ := List.forall_mem_append.mp hmid
      obtain ⟨k, tab, hdefined, hrest⟩ := assemble_append_of_labelsFree h₀ hbefore (labelsFree_empty (.inr hnodup))
      exact hrest _ _ (collect_cons_of_bind_error _ (hqbody q List.mem_cons_self)
        (bindLabelOf_of_defined hq (hdefined l hl)))

/-! ## Where errors point (46_assembler R188) -/

/-- The error was found at a record of the list. -/
def FoundIn (rs : List Record) (e : AsmError) : Prop := ∃ r ∈ rs, ∃ kind, e = asmErrorAt r kind

theorem foundIn_mono {rs rs' : List Record} {e : AsmError} (hsub : rs ⊆ rs') (h : FoundIn rs e) : FoundIn rs' e := by
  obtain ⟨r, hr, hkind⟩ := h
  exact ⟨r, hsub hr, hkind⟩

theorem bindLabelOf_error_foundIn {policy : DupLabelPolicy} {r : Record} {a : Word} {tab : SymTab} {e : AsmError}
    {rs : List Record} (hr : r ∈ rs) (h : bindLabelOf policy r a tab = .error e) : FoundIn rs e := by
  obtain ⟨-, l, rfl⟩ := bindLabelOf_error h
  exact ⟨r, hr, _, rfl⟩

theorem collect_error_foundIn {policy : DupLabelPolicy} {o : Word} {k : Nat} {tab : SymTab} {rs : List Record}
    {e : AsmError} (h : collect policy o k tab rs = .error e) : FoundIn rs e := by
  induction rs generalizing k tab with
  | nil => cases h
  | cons r rest ih =>
    have later {k' : Nat} {tab' : SymTab} (h : collect policy o k' tab' rest = .error e) : FoundIn (r :: rest) e :=
      foundIn_mono (List.subset_cons_self r rest) (ih h)
    unfold collect at h
    split at h
    next =>
      cases h
      exact ⟨r, List.mem_cons_self, _, rfl⟩
    next =>
      rcases bind_eq_error_iff.mp h with hbind | ⟨tab', -, h⟩
      · exact bindLabelOf_error_foundIn List.mem_cons_self hbind
      · exact later h
    next =>
      rcases bind_eq_error_iff.mp h with hbind | ⟨tab', -, h⟩
      · exact bindLabelOf_error_foundIn List.mem_cons_self hbind
      · rcases bind_eq_error_iff.mp h with hrest | ⟨found, -, h⟩
        · exact later hrest
        · cases h

theorem pass2_error_foundIn {tab : SymTab} {placed : List Placed} {e : AsmError} (h : pass2 tab placed = .error e) :
    FoundIn (placed.map Placed.record) e := by
  induction placed with
  | nil => cases h
  | cons q placed ih =>
    unfold pass2 at h
    split at h
    next =>
      cases h
      exact ⟨q.record, List.mem_cons_self, _, rfl⟩
    next =>
      rcases bind_eq_error_iff.mp h with hrest | ⟨ws, -, h⟩
      · exact foundIn_mono (List.subset_cons_self _ _) (ih hrest)
      · cases h

/-- What finding the origin has found. -/
theorem findOrigin_ok {rs rest : List Record} {r : Record} {o : Word} (h : findOrigin rs = .ok (r, o, rest)) :
    ∃ blanks, rs = blanks ++ r :: rest ∧ (∀ b ∈ blanks, recordIsBlank b = true) ∧ r.body = .origin o := by
  rcases findOrigin_cases rs with ⟨blanks, r', o', rest', hrs, hblanks, hbody, hfound⟩ | ⟨q, -, herror⟩ | ⟨-, herror⟩
  · cases hfound.symm.trans h
    exact ⟨blanks, hrs, hblanks, hbody⟩
  · cases herror.symm.trans h
  · cases herror.symm.trans h

/-- The records that an origin was found with are records of the list. -/
theorem subset_of_findOrigin_ok {rs rest : List Record} {r : Record} {o : Word}
    (h : findOrigin rs = .ok (r, o, rest)) : r :: rest ⊆ rs := by
  obtain ⟨blanks, rfl, -, -⟩ := findOrigin_ok h
  exact List.subset_append_right blanks (r :: rest)

theorem findOrigin_error {rs : List Record} {e : AsmError} (h : findOrigin rs = .error e) :
    FoundIn rs e ∨ ((∀ r ∈ rs, recordIsBlank r = true) ∧ findOrigin [] = .error e) := by
  rcases findOrigin_cases rs with ⟨blanks, r, o, rest, -, -, -, hfound⟩ | ⟨r, hr, herror⟩ | ⟨hblank, herror⟩
  · cases hfound.symm.trans h
  · cases herror.symm.trans h
    exact .inl ⟨r, hr, _, rfl⟩
  · exact .inr ⟨hblank, herror.symm.trans h⟩

/-- Pass 1 fails in finding the origin, or at one of the records from the origin on. -/
theorem pass1_error {policy : DupLabelPolicy} {rs : List Record} {e : AsmError} (h : pass1 policy rs = .error e) :
    findOrigin rs = .error e ∨ FoundIn rs e := by
  rcases bind_eq_error_iff.mp h with hfound | ⟨⟨r, o, rest⟩, hfound, h⟩
  · exact .inl hfound
  · refine .inr (foundIn_mono (subset_of_findOrigin_ok hfound) ?_)
    rcases bind_eq_error_iff.mp h with hbind | ⟨tab, -, h⟩
    · exact bindLabelOf_error_foundIn List.mem_cons_self hbind
    · rcases bind_eq_error_iff.mp h with hwalk | ⟨found, -, h⟩
      · exact foundIn_mono (List.subset_cons_self r rest) (collect_error_foundIn hwalk)
      · cases h

/-- The records that pass 1 places are records of the list. -/
theorem placed_records_subset {policy : DupLabelPolicy} {rs : List Record} {o : Word} {tab : SymTab}
    {placed : List Placed} (h : pass1 policy rs = .ok (o, tab, placed)) : placed.map Placed.record ⊆ rs := by
  obtain ⟨r, rest, tab₀, hfound, -, hwalk⟩ := pass1_ok h
  rw [walk_placed_records hwalk]
  exact fun q hq => subset_of_findOrigin_ok hfound (List.mem_cons_of_mem r (List.mem_filter.mp hq).1)

/-- The assembler fails at a record of the list, unless the list has no entry. -/
theorem assemble_error {policy : DupLabelPolicy} {rs : List Record} {e : AsmError}
    (h : assemble policy rs = .error e) :
    FoundIn rs e ∨ ((∀ r ∈ rs, recordIsBlank r = true) ∧ findOrigin [] = .error e) := by
  rcases bind_eq_error_iff.mp h with h | ⟨⟨o, tab, placed⟩, hpass1, h⟩
  · rcases pass1_error h with hfind | hfound
    · exact findOrigin_error hfind
    · exact .inl hfound
  · rcases bind_eq_error_iff.mp h with h | ⟨words, -, h⟩
    · exact .inl (foundIn_mono (placed_records_subset hpass1) (pass2_error_foundIn h))
    · cases h

/-- Settles O59: an error found at a record carries its line and text. -/
theorem errorsCarryTheLineAndTextOfARecord : Obligations.ErrorsCarryTheLineAndTextOfARecord := by
  intro policy rs e h
  rcases assemble_error h with ⟨r, hr, kind, rfl⟩ | ⟨hblank, hnoEntry⟩
  · exact .inl ⟨r, hr, rfl, rfl⟩
  · cases hnoEntry
    exact .inr ⟨rfl, rfl, rfl, hblank⟩

/-! ## The assembled words in memory (46_assembler R186, 70_reset_and_hazards R222) -/

theorem instrCount_append (rs rs' : List Record) : instrCount (rs ++ rs') = instrCount rs + instrCount rs' := by
  induction rs with
  | nil => exact (Nat.zero_add _).symm
  | cons r rs ih =>
    rw [List.cons_append]
    cases hbody : r.body with
    | origin o => rw [instrCount_cons_origin _ hbody, instrCount_cons_origin _ hbody, ih]
    | noWord => rw [instrCount_cons_noWord _ hbody, instrCount_cons_noWord _ hbody, ih]
    | instr op operands =>
      rw [instrCount_cons_instr _ hbody, instrCount_cons_instr _ hbody, ih, Nat.add_right_comm]

theorem instrCount_blanks {blanks : List Record} (h : ∀ r ∈ blanks, recordIsBlank r = true) :
    instrCount blanks = 0 := by
  induction blanks with
  | nil => rfl
  | cons b blanks ih =>
    obtain ⟨hb, hblanks⟩ := List.forall_mem_cons.mp h
    have hbody : b.body = .noWord := of_decide_eq_true (Bool.and_eq_true_iff.mp hb).2
    rw [instrCount_cons_noWord _ hbody, ih hblanks]

/-- Pass 1 places every instruction record of the list, from the origin on. -/
theorem pass1_placed {policy : DupLabelPolicy} {rs : List Record} {o : Word} {tab : SymTab} {placed : List Placed}
    (h : pass1 policy rs = .ok (o, tab, placed)) :
    placed.length = instrCount rs ∧
      ∀ (k : Nat) (hk : k < placed.length), placed[k].addr = wordAddress o k := by
  obtain ⟨r, rest, tab₀, hfound, -, hwalk⟩ := pass1_ok h
  obtain ⟨blanks, rfl, hblanks, hbody⟩ := findOrigin_ok hfound
  refine ⟨?_, fun k hk => ?_⟩
  · rw [walk_placed_length hwalk, instrCount_append, instrCount_blanks hblanks, instrCount_cons_origin rest hbody,
      Nat.zero_add]
  · obtain ⟨haddr, -⟩ := walk_placed_getElem hwalk hk
    rw [haddr, Nat.zero_add]

/-- Pass 2 answers one word for each placed record, in order. -/
theorem pass2_ok {tab : SymTab} {placed : List Placed} {words : List Word} (h : pass2 tab placed = .ok words) :
    List.Forall₂ (fun q w => encodeRecord tab q.addr q.op q.operands = .ok w) placed words := by
  induction placed generalizing words with
  | nil =>
    cases h
    exact .nil
  | cons q placed ih =>
    unfold pass2 at h
    split at h
    next => cases h
    next w hw =>
      obtain ⟨ws, hws, h⟩ := bind_eq_ok_iff.mp h
      cases h
      exact .cons hw (ih hws)

theorem wordAddress_eq_wordOf (o : Word) (k : Nat) : wordAddress o k = wordOf (o.toNat + k) := by
  rw [wordOf, BitVec.ofNat_add, BitVec.ofNat_toNat, BitVec.setWidth_eq]
  rfl

/-- A load that answers `ok` leaves each word of the payload at its address. -/
theorem readMem_of_load_ok {o : Word} {payload : List Word} {s t : State} (h : load (o :: payload) s = (.ok, t))
    {k : Nat} (hk : k < payload.length) : t.readMem (wordOf (o.toNat + k)) = payload[k] := by
  simp only [load] at h
  split at h
  next => cases h
  next hfits =>
    cases h
    have haddr : (wordOf (o.toNat + k)).toNat = o.toNat + k := by
      rw [wordOf, BitVec.toNat_ofNat]
      omega
    rw [readMem_writeWords payload s o _ (by omega), haddr, if_pos (by omega), Nat.add_sub_cancel_left,
      List.getD_eq_getElem payload 0 hk]

/-- Settles O60: pass 1 gives the addresses, pass 2 gives the words, and the load puts each word at its address. -/
theorem assembledProgramStandsInMemoryAsItsInstructions :
    Obligations.AssembledProgramStandsInMemoryAsItsInstructions := by
  intro policy rs stream s t h hload
  obtain ⟨⟨o, tab, placed⟩, hpass1, h⟩ := bind_eq_ok_iff.mp h
  obtain ⟨words, hpass2, h⟩ := bind_eq_ok_iff.mp h
  cases h
  obtain ⟨hcount, haddr⟩ := pass1_placed hpass1
  obtain ⟨hlen, hwords⟩ := List.forall₂_iff_get.mp (pass2_ok hpass2)
  refine ⟨o, tab, placed, hpass1, rfl, ?_, hcount, fun k hk => ?_⟩
  · rw [List.length_cons, ← hlen, hcount, Nat.add_comm]
  · have hk' : k < words.length := hlen ▸ hk
    have hat : placed[k].addr = wordOf (o.toNat + k) := (haddr k hk).trans (wordAddress_eq_wordOf o k)
    have hword : encodeRecord tab placed[k].addr placed[k].op placed[k].operands = .ok (t.readMem placed[k].addr) := by
      rw [hat, readMem_of_load_ok hload hk', ← hat]
      exact hwords k hk hk'
    obtain ⟨fs, i, -, -, hdecode, hop⟩ := decode_of_encodeRecord hword
    exact ⟨hat, hword, hdecode ▸ hop⟩

end Sys2Proof.Proofs

namespace Sys2Proof.Proofs

open Sys2Proof.Machine Sys2Proof.Safety Sys2Proof.Laws

/-! ## Where a step stops (60_exceptions R200, R201) -/

/-- Away from the reserved opcode a step answers a next state, which the host's step reports as applied. -/
theorem stepIn_of_not_reserved (order : LinkOrder) {s : State} (h : (s.readMem s.pc).toNat / 4096 ≠ 13) :
    ∃ t rd, stepIn order s = .next t ∧ hostStep order s = (.applied rd, t) := by
  rcases hostStep_cases order s with ⟨hunknown, -⟩ | ⟨-, t, hstep, hnext⟩
  · exact absurd ((decode_eq_unknown_iff _).mp hunknown) h
  · exact ⟨t, _, hstep, hnext⟩

/-- On the reserved opcode a step stops with the pc and the word there. -/
theorem stepIn_of_reserved (order : LinkOrder) {s : State} (h : (s.readMem s.pc).toNat / 4096 = 13) :
    stepIn order s = .fault (.unrecognized s.pc (s.readMem s.pc)) := by
  have hunknown : decode s.fetch = .unknown := (decode_eq_unknown_iff _).mpr h
  rw [stepIn, hunknown]
  rfl

/-- The host's step never reports `Invalid` (decision D29). -/
theorem hostStep_ne_invalid (order : LinkOrder) (s : State) : (hostStep order s).1 ≠ .invalid := by
  rcases hostStep_cases order s with ⟨-, hstop⟩ | ⟨-, t, -, hnext⟩
  · simp [hstop]
  · simp [hnext]

/-- Settles O29: in either order by whether the word is reserved; `step` is the order `jsrrLinkOrder`. -/
theorem stepStopsExactlyOnTheReservedOpcode : Obligations.StepStopsExactlyOnTheReservedOpcode := by
  intro s
  simp only [← stepIn_jsrrLinkOrder]
  refine ⟨fun h => ⟨?_, fun order => stepIn_of_not_reserved order h⟩,
    fun h => ⟨stepIn_of_reserved _ h, fun order => stepIn_of_reserved order h⟩, (hostStep_ne_invalid · s)⟩
  obtain ⟨t, -, hstep, -⟩ := stepIn_of_not_reserved jsrrLinkOrder h
  exact ⟨t, hstep⟩

/-! ## Taking an interrupt (60_exceptions R204) -/

/-- The difference of two words is the difference of their numbers, modulo 2^16. -/
theorem isMod_sub {a b : Word} {x y : Int} (ha : IsMod a x) (hb : IsMod b y) : IsMod (a - b) (x - y) := by
  unfold IsMod at *
  rw [BitVec.toNat_sub]
  omega

/-- The saved stack pointer becomes the active one, with room for two words. -/
theorem interrupt_readReg_sp (v : Word) (s : State) : (interrupt v s).readReg 6 = s.sspSaved - 2 := by
  obtain ⟨hsp, -⟩ := takeInterrupt_spec s v
  exact hsp

/-- The active stack pointer is saved. -/
theorem interrupt_sspSaved (v : Word) (s : State) : (interrupt v s).sspSaved = s.readReg 6 := by
  obtain ⟨-, hssp, -⟩ := takeInterrupt_spec s v
  exact hssp

/-- The pc comes from the vector, in the memory that holds the pushed words. -/
theorem interrupt_pc (v : Word) (s : State) : (interrupt v s).pc = (interrupt v s).readMem v := by
  obtain ⟨-, -, -, -, hpc, -⟩ := takeInterrupt_spec s v
  exact hpc

/-- The pc is pushed two words below the saved stack pointer; the push of `PSR` does not fall on it. -/
theorem interrupt_reads_pushed_pc (v : Word) (s : State) : (interrupt v s).readMem (s.sspSaved - 2) = s.pc := by
  have hapart : s.sspSaved - 2 ≠ s.sspSaved - 1 := by bv_omega
  rw [interrupt_readMem, if_neg hapart, if_pos rfl]

/-- `PSR` is pushed one word below the saved stack pointer. -/
theorem interrupt_reads_pushed_psr (v : Word) (s : State) : (interrupt v s).readMem (s.sspSaved - 1) = s.psr := by
  rw [interrupt_readMem, if_pos rfl]

/-- Settles O43: the two pushes are at the saved stack pointer less 2 and less 1. -/
theorem interruptSwapsStacksPushesAndVectors : Obligations.InterruptSwapsStacksPushesAndVectors :=
  fun v s => ⟨s.sspSaved - 2, s.sspSaved - 1, isMod_sub (isMod_toNat _) (isMod_toNat 2),
    isMod_sub (isMod_toNat _) (isMod_toNat 1), interrupt_readReg_sp v s, interrupt_sspSaved v s,
    interrupt_reads_pushed_pc v s, interrupt_reads_pushed_psr v s, interrupt_memKept v s, interrupt_pc v s,
    interrupt_regsKept v s, interrupt_flags v s, interrupt_psr v s⟩

/-! ## Returning from an interrupt (60_exceptions R205 to R207, decision D7) -/

theorem regsKept_trans {s t u : State} {but : List RegIdx} (h : RegsKept s t but) (h' : RegsKept t u but) :
    RegsKept s u but :=
  fun r hr => (h' r hr).trans (h r hr)

/-- The return writes no register but R6. -/
theorem returnFromInterrupt_regsKept (s : State) : RegsKept s s.returnFromInterrupt [6] := by
  obtain ⟨-, -, -, hothers, -⟩ := returnFromInterrupt_spec s
  exact fun r hr => hothers r (List.ne_of_not_mem_cons hr)

/-- A return right after an interrupt pops what the interrupt pushed: it undoes all but the exchange of the stack
pointers and the two words pushed. -/
theorem returnFromInterrupt_interrupt (v : Word) (s : State) :
    let t := (interrupt v s).returnFromInterrupt
    t.pc = s.pc ∧ t.psr = s.psr ∧ FlagsKept s t ∧ RegsKept s t [6] ∧ t.readReg 6 = s.sspSaved ∧
      t.sspSaved = s.readReg 6 ∧ MemKept s t [s.sspSaved - 2, s.sspSaved - 1] := by
  obtain ⟨hpc, hpsr, hsp, -, -, hflags, hssp⟩ := returnFromInterrupt_spec (interrupt v s)
  rw [interrupt_readReg_sp] at hpc hpsr hsp
  rw [sub_two_add_one] at hpsr
  exact ⟨hpc.trans (interrupt_reads_pushed_pc v s), hpsr.trans (interrupt_reads_pushed_psr v s),
    hflags.trans (interrupt_flags v s), regsKept_trans (interrupt_regsKept v s) (returnFromInterrupt_regsKept _),
    hsp.trans (BitVec.sub_add_cancel _ _), hssp.trans (interrupt_sspSaved v s), interrupt_memKept v s⟩

/-- Settles O44: RTI is the return, and it pops what the interrupt pushed. -/
theorem returnRightAfterInterruptResumes : Obligations.ReturnRightAfterInterruptResumes :=
  fun v s => ⟨_, rfl, returnFromInterrupt_interrupt v s⟩

/-- Settles O45: the first RTI undoes the second interrupt but leaves the stacks exchanged, so the second RTI pops from
the stack that was active before the first interrupt, two words above A. -/
theorem nestedInterruptsLeaveTheStacksShifted : Obligations.NestedInterruptsLeaveTheStacksShifted := by
  intro v v' s
  have hssp : (interrupt v s).sspSaved = s.readReg 6 := interrupt_sspSaved v s
  have hsp' : (interrupt v' (interrupt v s)).readReg 6 = s.readReg 6 - 2 := hssp ▸ interrupt_readReg_sp v' _
  have hssp' : (interrupt v' (interrupt v s)).sspSaved = s.sspSaved - 2 :=
    (interrupt_sspSaved v' _).trans (interrupt_readReg_sp v s)
  have hpushed : (interrupt v' (interrupt v s)).readMem (s.readReg 6 - 2) = (interrupt v s).pc :=
    hssp ▸ interrupt_reads_pushed_pc v' _
  obtain ⟨hpc₁, hpsr₁, hflags₁, hregs₁, hsp₁, -⟩ := returnFromInterrupt_interrupt v' (interrupt v s)
  obtain ⟨hpc₂, hpsr₂, hsp₂, -, -, hflags₂, -⟩ :=
    returnFromInterrupt_spec (interrupt v' (interrupt v s)).returnFromInterrupt
  rw [hsp₁, hssp] at hpc₂ hpsr₂ hsp₂
  exact ⟨_, _, hsp', hssp', hpushed, rfl, hpc₁, hpsr₁.trans (interrupt_psr v s), rfl, hpc₂, hpsr₂, hsp₂, hssp',
    regsKept_trans (interrupt_regsKept v s) (regsKept_trans hregs₁ (returnFromInterrupt_regsKept _)),
    hflags₂.trans (hflags₁.trans (interrupt_flags v s))⟩

end Sys2Proof.Proofs

namespace Sys2Proof.Proofs

open Sys2Proof.Machine Sys2Proof.Safety Sys2Proof.Laws

/-! ## Reset (70_reset_and_hazards R220, 10_state R30) -/

/-- After reset R6 holds `RESET_SP_ACTIVE` and every other register zero. -/
theorem resetWith_readReg (p : ResetParams) (r : RegIdx) :
    (State.resetWith p).readReg r = if r = 6 then p.resetSpActive else 0x0000 := by
  unfold State.resetWith State.resetOver State.readReg
  simp only [Fin.getElem_fin, Vector.getElem_set, Vector.getElem_replicate]
  by_cases h : r = 6
  · simp [h]
  · rw [if_neg h, if_neg fun hval => h (Fin.ext hval.symm)]

/-- Each flag after reset is set by its own value of `RESET_NZP` and by no other. -/
theorem resetFlagsOf_iff (f : ResetFlags) :
    ((resetFlagsOf f).n = true ↔ f = .n) ∧ ((resetFlagsOf f).z = true ↔ f = .z) ∧
      ((resetFlagsOf f).p = true ↔ f = .p) := by
  cases f <;> decide

/-- Settles O37: reset reads nothing of the state before it; its registers, flags and memory each in turn. -/
theorem resetGivesEveryPieceItsValue : Obligations.ResetGivesEveryPieceItsValue := by
  intro p s
  obtain ⟨hn, hz, hp⟩ := resetFlagsOf_iff p.resetNzp
  exact ⟨rfl, fun r hr => (resetWith_readReg p r).trans (if_neg hr), (resetWith_readReg p 6).trans (if_pos rfl), rfl,
    hn, hz, hp, rfl, resetWith_readMem p⟩

/-! ## Load (70_reset_and_hazards R222, R223, decision D12) -/

/-- A load answers `ok` exactly where its payload fits, and then it has written the payload at the origin. -/
theorem load_eq_ok_iff {o : Word} {payload : List Word} {s t : State} :
    load (o :: payload) s = (.ok, t) ↔ o.toNat + payload.length ≤ 65536 ∧ t = s.writeWords o payload := by
  simp only [load]
  split
  next hover => simp [Nat.not_le.mpr hover]
  next hfits => simp [Nat.not_lt.mp hfits, eq_comm]

/-- A load that answers `ok` keeps every word outside its range. -/
theorem readMem_of_load_ok_outside {o : Word} {payload : List Word} {s t : State}
    (h : load (o :: payload) s = (.ok, t)) {a : Word}
    (ha : a.toNat < o.toNat ∨ o.toNat + payload.length ≤ a.toNat) : t.readMem a = s.readMem a := by
  obtain ⟨hfits, rfl⟩ := load_eq_ok_iff.mp h
  rw [readMem_writeWords payload s o a hfits, if_neg (by omega)]

/-- Settles O46: the stream's length against the address space, then the words inside and outside the range. -/
theorem loadCopiesThePayloadOrChangesNothing : Obligations.LoadCopiesThePayloadOrChangesNothing := by
  refine ⟨fun _ => rfl, fun o payload s hover => if_pos hover, fun o payload s hfits => ?_⟩
  have hload : load (o :: payload) s = (.ok, s.writeWords o payload) := load_eq_ok_iff.mpr ⟨hfits, rfl⟩
  have hframe := load_frame (o :: payload) s
  rw [hload] at hframe
  exact ⟨_, hload, fun _ => readMem_of_load_ok hload, fun _ => readMem_of_load_ok_outside hload, hframe⟩

/-- Settles O47: a word of the earlier load outside the later one's range is what the earlier load left there. -/
theorem laterLoadsOverwriteEarlierOnes : Obligations.LaterLoadsOverwriteEarlierOnes := by
  intro o o' ws ws' s t u hfirst hsecond
  refine ⟨fun _ => readMem_of_load_ok hsecond, fun k hk houtside => ?_⟩
  obtain ⟨hfits, -⟩ := load_eq_ok_iff.mp hfirst
  have haddr : (wordOf (o.toNat + k)).toNat = o.toNat + k := Nat.mod_eq_of_lt (by omega)
  calc u.readMem (wordOf (o.toNat + k))
      = t.readMem (wordOf (o.toNat + k)) := readMem_of_load_ok_outside hsecond (haddr.symm ▸ houtside)
    _ = ws[k] := readMem_of_load_ok hfirst hk

end Sys2Proof.Proofs

namespace Sys2Proof.Proofs

open Sys2Proof.Machine Sys2Proof.Safety Sys2Proof.Laws

/-! ## Run to halt (70_reset_and_hazards R226, R227, decision D17) -/

/-- No state of the run before its `k`-th is at the halt sentinel. -/
def NoHaltBefore (order : LinkOrder) (haltPc : Word) (k : Nat) (s : State) : Prop :=
  ∀ j u, j < k → Steps order j s u → ¬EndsNormally haltPc u

/-- How a run with a budget ends, in terms of its steps alone. -/
inductive RunEnds (order : LinkOrder) (haltPc : Word) (n : Nat) (s : State) : RunOutcome → State → Prop where
  | halted {k : Nat} {t : State} : k ≤ n → Steps order k s t → EndsNormally haltPc t →
      NoHaltBefore order haltPc k s → RunEnds order haltPc n s .halted t
  | budgetExhausted {t : State} : Steps order n s t → NoHaltBefore order haltPc (n + 1) s →
      RunEnds order haltPc n s .budgetExhausted t
  | unrecognized {k : Nat} {t : State} : k < n → Steps order k s t → ¬Recognized t →
      NoHaltBefore order haltPc (k + 1) s → RunEnds order haltPc n s .unrecognized t

section
variable {order : LinkOrder} {haltPc : Word} {n k : Nat} {s t u : State} {o : RunOutcome}

theorem noHaltBefore_zero : NoHaltBefore order haltPc 0 s := fun _ _ hj => absurd hj (Nat.not_lt_zero _)

theorem noHaltBefore_mono {m : Nat} (hkm : k ≤ m) (h : NoHaltBefore order haltPc m s) :
    NoHaltBefore order haltPc k s :=
  fun j u hj => h j u (hj.trans_le hkm)

theorem noHaltBefore_succ_iff_le :
    NoHaltBefore order haltPc (k + 1) s ↔ ∀ j u, j ≤ k → Steps order j s u → ¬EndsNormally haltPc u := by
  simp only [NoHaltBefore, Nat.lt_succ_iff]

/-- The run from a state is the state and then the run from its next state. -/
theorem noHaltBefore_succ_iff (hstep : stepIn order s = .next t) :
    NoHaltBefore order haltPc (k + 1) s ↔ ¬EndsNormally haltPc s ∧ NoHaltBefore order haltPc k t := by
  refine ⟨fun h => ⟨h 0 s (Nat.succ_pos k) (.none s), fun j u hj hsteps =>
    h (j + 1) u (Nat.succ_lt_succ hj) (.more hstep hsteps)⟩, fun ⟨hs, ht⟩ j u hj hsteps => ?_⟩
  cases hsteps with
  | none => exact hs
  | more hstep' hrest =>
    cases hstep.symm.trans hstep'
    exact ht _ u (Nat.lt_of_succ_lt_succ hj) hrest

/-- Where the run is one state long only that state counts. -/
theorem noHaltBefore_one (hs : ¬EndsNormally haltPc s) : NoHaltBefore order haltPc 1 s := by
  intro j u hj hsteps
  cases hsteps with
  | none => exact hs
  | more => omega

/-- The host's step by whether the word at the pc is recognized. -/
theorem hostStep_recognized_cases (order : LinkOrder) (s : State) :
    (¬Recognized s ∧ hostStep order s = (.unrecognized, s)) ∨
    (Recognized s ∧ ∃ t rd, stepIn order s = .next t ∧ hostStep order s = (.applied rd, t)) := by
  unfold Recognized
  rw [not_not, Ne, opcodeDecode_eq_none_iff]
  by_cases h : s.fetch.toNat / 4096 = 13
  · exact .inl ⟨h, hostStep_of_reserved order h⟩
  · exact .inr ⟨h, stepIn_of_not_reserved order h⟩

/-! ### The equations of `runToHalt` -/

theorem runToHalt_of_halt (n : Nat) (h : EndsNormally haltPc s) : runToHalt order haltPc n s = (.halted, s) := by
  cases n <;> exact if_pos h

theorem runToHalt_zero (h : ¬EndsNormally haltPc s) : runToHalt order haltPc 0 s = (.budgetExhausted, s) := if_neg h

theorem runToHalt_succ_of_step (h : ¬EndsNormally haltPc s) (hstep : stepIn order s = .next t) :
    runToHalt order haltPc (n + 1) s = runToHalt order haltPc n t := by
  have hnext : hostStep order s = (.applied (reportedRead (decode s.fetch) s), t) := by simp [hostStep, hstep]
  rw [runToHalt, if_neg (show ¬s.pc = haltPc from h), hnext]

theorem runToHalt_succ_of_not_recognized (h : ¬EndsNormally haltPc s) (hs : ¬Recognized s) :
    runToHalt order haltPc (n + 1) s = (.unrecognized, s) := by
  rcases hostStep_recognized_cases order s with ⟨-, hstop⟩ | ⟨hknown, -⟩
  · rw [runToHalt, if_neg (show ¬s.pc = haltPc from h), hstop]
  · exact absurd hknown hs

/-- Steps that meet no halt state are steps of the run, each taking one from the budget. -/
theorem runToHalt_add_of_steps (m : Nat) (hsteps : Steps order k s t) (hno : NoHaltBefore order haltPc k s) :
    runToHalt order haltPc (k + m) s = runToHalt order haltPc m t := by
  induction hsteps with
  | none s => rw [Nat.zero_add]
  | more hstep _ ih =>
    obtain ⟨hs, hrest⟩ := (noHaltBefore_succ_iff hstep).mp hno
    rw [Nat.succ_add, runToHalt_succ_of_step hs hstep, ih hrest]

/-! ### `runToHalt` is `RunEnds` -/

/-- One step more at the front, and one more in the budget. -/
theorem runEnds_of_step (hs : ¬EndsNormally haltPc s) (hstep : stepIn order s = .next t)
    (h : RunEnds order haltPc n t o u) : RunEnds order haltPc (n + 1) s o u := by
  have cons {k : Nat} (hno : NoHaltBefore order haltPc k t) : NoHaltBefore order haltPc (k + 1) s :=
    (noHaltBefore_succ_iff hstep).mpr ⟨hs, hno⟩
  cases h with
  | halted hk hsteps hend hno => exact .halted (Nat.succ_le_succ hk) (.more hstep hsteps) hend (cons hno)
  | budgetExhausted hsteps hno => exact .budgetExhausted (.more hstep hsteps) (cons hno)
  | unrecognized hk hsteps hrec hno => exact .unrecognized (Nat.succ_lt_succ hk) (.more hstep hsteps) hrec (cons hno)

/-- Every run with a budget ends in one of the three ways. -/
theorem runEnds_runToHalt (order : LinkOrder) (haltPc : Word) (n : Nat) (s : State) :
    RunEnds order haltPc n s (runToHalt order haltPc n s).1 (runToHalt order haltPc n s).2 := by
  induction n generalizing s with
  | zero =>
    by_cases hs : EndsNormally haltPc s
    · rw [runToHalt_of_halt 0 hs]
      exact .halted (Nat.le_refl 0) (.none s) hs noHaltBefore_zero
    · rw [runToHalt_zero hs]
      exact .budgetExhausted (.none s) (noHaltBefore_one hs)
  | succ n ih =>
    by_cases hs : EndsNormally haltPc s
    · rw [runToHalt_of_halt (n + 1) hs]
      exact .halted (Nat.zero_le _) (.none s) hs noHaltBefore_zero
    rcases hostStep_recognized_cases order s with ⟨hrec, -⟩ | ⟨-, t, -, hstep, -⟩
    · rw [runToHalt_succ_of_not_recognized hs hrec]
      exact .unrecognized (Nat.succ_pos n) (.none s) hrec (noHaltBefore_one hs)
    · rw [runToHalt_succ_of_step hs hstep]
      exact runEnds_of_step hs hstep (ih t)

/-- What a run with a budget returns is how its steps end. -/
theorem runToHalt_eq_iff : runToHalt order haltPc n s = (o, t) ↔ RunEnds order haltPc n s o t := by
  refine ⟨fun h => ?_, fun h => ?_⟩
  · simpa only [h] using runEnds_runToHalt order haltPc n s
  cases h with
  | halted hk hsteps hend hno =>
    obtain ⟨m, rfl⟩ := Nat.exists_eq_add_of_le hk
    rw [runToHalt_add_of_steps m hsteps hno, runToHalt_of_halt m hend]
  | budgetExhausted hsteps hno =>
    have hrun := runToHalt_add_of_steps 0 hsteps (noHaltBefore_mono (Nat.le_succ n) hno)
    rw [← runToHalt_zero (hno n t (Nat.lt_succ_self n) hsteps), ← hrun, Nat.add_zero]
  | @unrecognized k _ hk hsteps hrec hno =>
    obtain ⟨m, rfl⟩ := Nat.exists_eq_add_of_lt hk
    rw [Nat.add_assoc, runToHalt_add_of_steps (m + 1) hsteps (noHaltBefore_mono (Nat.le_succ k) hno),
      runToHalt_succ_of_not_recognized (hno k t (Nat.lt_succ_self k) hsteps) hrec]

/-- A run that ends without exhausting its budget ends the same way with a larger one. -/
theorem runEnds_mono {m : Nat} (hnm : n ≤ m) (ho : o ≠ .budgetExhausted) (h : RunEnds order haltPc n s o t) :
    RunEnds order haltPc m s o t := by
  cases h with
  | halted hk hsteps hend hno => exact .halted (hk.trans hnm) hsteps hend hno
  | budgetExhausted => exact absurd rfl ho
  | unrecognized hk hsteps hrec hno => exact .unrecognized (hk.trans_le hnm) hsteps hrec hno

/-- A run that meets neither the halt sentinel nor the reserved opcode exhausts every budget. -/
theorem eq_budgetExhausted_of_endless (hgo : ∀ n u, Steps order n s u → ¬EndsNormally haltPc u ∧ Recognized u)
    (h : RunEnds order haltPc n s o t) : o = .budgetExhausted := by
  cases h with
  | halted _ hsteps hend => exact absurd hend (hgo _ _ hsteps).1
  | budgetExhausted => rfl
  | unrecognized _ hsteps hrec => exact absurd (hgo _ _ hsteps).2 hrec

end

/-- Settles O48: each outcome is one of the ways in which a run ends, and `Invalid` is none of them. -/
theorem runToHaltStopsAtTheFirstHaltState : Obligations.RunToHaltStopsAtTheFirstHaltState := by
  intro order haltPc n s t
  simp only [runToHalt_eq_iff, ← noHaltBefore_succ_iff_le]
  refine ⟨⟨fun h => ?_, fun ⟨_, hk, hsteps, hend, hno⟩ => .halted hk hsteps hend hno⟩,
    ⟨fun h => ?_, fun ⟨hsteps, hno⟩ => .budgetExhausted hsteps hno⟩,
    ⟨fun h => ?_, fun ⟨_, hk, hsteps, hrec, hno⟩ => .unrecognized hk hsteps hrec hno⟩, fun hinvalid => ?_⟩
  · cases h with
    | halted hk hsteps hend hno => exact ⟨_, hk, hsteps, hend, hno⟩
  · cases h with
    | budgetExhausted hsteps hno => exact ⟨hsteps, hno⟩
  · cases h with
    | unrecognized hk hsteps hrec hno => exact ⟨_, hk, hsteps, hrec, hno⟩
  · have h := runEnds_runToHalt order haltPc n s
    rw [hinvalid] at h
    cases h

/-- Settles O49: larger budgets agree with the one that was enough, so two runs agree at the larger of their budgets. -/
theorem runWithoutBudgetReturnsOneResult : Obligations.RunWithoutBudgetReturnsOneResult := by
  intro order haltPc s t o
  simp only [RunReturns, runToHalt_eq_iff]
  refine ⟨fun ⟨ho, n, hn⟩ => ⟨?_, fun o' t' ⟨ho', n', hn'⟩ => ?_, n, fun m hnm => runEnds_mono hnm ho hn⟩,
    fun hgo ⟨ho, n, hn⟩ => ho (eq_budgetExhausted_of_endless hgo hn)⟩
  · cases hn with
    | halted => exact .inl rfl
    | budgetExhausted => exact absurd rfl ho
    | unrecognized => exact .inr rfl
  · have h := runToHalt_eq_iff.mpr (runEnds_mono (Nat.le_max_left n n') ho hn)
    have h' := runToHalt_eq_iff.mpr (runEnds_mono (Nat.le_max_right n n') ho' hn')
    exact Prod.mk.inj (h'.symm.trans h)

end Sys2Proof.Proofs
